-- ==== Sys2Proof/Word.lean ====
section
/-! DEFINITION. The two bit-vector types of the machine (spec/00_scope.md rule R5). -/

namespace Sys2Proof

/-- A byte: a memory cell, a register slot, an operand, an emitted value (XLEN = CELL_BITS = 8, rule R5). -/
abbrev Byte := BitVec 8

/-- A value of the program counter: 9 bits, so that 256 is representable (rule R16). -/
abbrev PcWord := BitVec 9

end Sys2Proof
end

