-- ==== Sys2Proof/Config.lean ====
section
/-! DEFINITION. The parameters of the engine (spec/00_scope.md rule R5), and the one value the spec leaves open. -/

namespace Sys2Proof

/-- MEM_SIZE: the number of memory cells. -/
@[simp] abbrev Config.memSize : Nat := 256

/-- NUM_REGS: the number of register slots; `Machine.RegIdx` is `Fin 8`. -/
@[simp] abbrev Config.numRegs : Nat := 8

/-- SP_RESET: the reset value of register 7 and the bound of the POP guard (decisions D5, D6). -/
@[simp] abbrev Config.spReset : Byte := 0xF4#8

/-- PC_RESET: the reset value of the program counter. -/
@[simp] abbrev Config.pcReset : PcWord := 0#9

/-- LOAD_BASE: the address of the first program byte. -/
@[simp] abbrev Config.loadBase : Nat := 0

/-- MAX_ILEN: the longest instruction in bytes. -/
@[simp] abbrev Config.maxIlen : Nat := 3

/-- EXIT_CODE_OTHER_FAULT less one (70_reset_and_hazards.md rule R170): the source gives no exit code for a fault
other than InvalidOpcode, only that it is non-zero (D13, OPEN). A free value of the HOST: no body, so nothing rests
on a number. No rule of the engine depends on it. See assumption 7. -/
opaque Config.exitCodeOtherFaultPred : Nat

/-- EXIT_CODE_OTHER_FAULT: any non-zero number (rule R170). -/
def Config.exitCodeOtherFault : Nat := Config.exitCodeOtherFaultPred + 1

end Sys2Proof
end

