-- ==== Sys2Proof/Machine/State.lean ====
section
/-! DEFINITION. The architectural state of the engine, exactly the tuple of spec/10_state.md rule R10, and its reset
value (rule R26). Plain data throughout. -/

namespace Sys2Proof.Machine

/-- The engine's state machine: the three values of rule R19, which an engine has once started, and the state it is in
before that. -/
inductive RunState where
  /-- Reset and not yet started: 'the engine not yet running' of spec/70_reset_and_hazards.md rule R160, in which 'the
  engine takes no step' (rule R26). DEDUCED: rule R19 names only the other three (assumption 1). Left by the host's start
  only. -/
  | notStarted
  /-- The engine takes steps. -/
  | running
  /-- The engine executed `HLT`; terminal, left by reset only. -/
  | halted
  /-- The engine raised a fault; terminal, left by reset only. -/
  | faulted
  deriving DecidableEq, Repr

/-- The four synchronous fault causes (spec/60_exceptions.md rule R130). -/
inductive Cause where
  /-- The opcode byte has no dispatch-table entry (rule R133). -/
  | invalidOpcode
  /-- An address outside 0 .. 255, or one of the two stack bounds (rule R131). -/
  | outOfBounds
  /-- A register operand outside 0 .. 7 (rule R132). -/
  | invalidRegister
  /-- An ALU operation name that is neither ADD nor MUL; reached by no opcode (rule R134). -/
  | unsupportedALUOperation
  deriving DecidableEq, Repr

/-- The fault record (rule R20). -/
structure FaultRecord where
  /-- Why the step faulted. -/
  cause : Cause
  /-- The pc of the instruction whose step raised the fault. -/
  atPc : PcWord
  /-- The opcode byte, the offending address or the offending index; `none` for cause 4, for which rule R130 records
  none (assumption 3). -/
  info : Option Int
  deriving DecidableEq, Repr

/-- The memory array (rule R22), as (address, byte) pairs. Canonical form (`Memory.wf`): addresses strictly rising and
below 256, no entry zero. An unlisted address reads as 0, the reset content (rules R26, R38). -/
abbrev Memory := List Host.Cell

/-- A register slot number, 0 .. 7 (rule R11). -/
abbrev RegIdx := Fin 8

/-- The register file: eight slots of 8 bits, slot 7 the stack pointer (rules R11, R12). -/
abbrev RegFile := Vector Byte 8

/-- The whole state (rule R10). -/
structure State where
  /-- `M`, the memory array (rule R22). -/
  mem : Memory
  /-- `x`, the register file (rule R11). -/
  regs : RegFile
  /-- The program counter (rule R16). -/
  pc : PcWord
  /-- The run state (rule R19). -/
  runState : RunState
  /-- Why and where the engine faulted; `none` until it does (rule R20). -/
  fault : Option FaultRecord
  /-- What PRN has emitted since reset, oldest first (rule R23). -/
  out : List Byte
  deriving DecidableEq, Repr

/-- Why `step` has no next state. The spec's own faults are NOT these: taking one is a next state whose `runState` is
`faulted` (rule R136). The engine takes a step only while it is Running (spec/40_engine.md rule R70). -/
inductive Fault where
  /-- Raised by `step` alone, in a state that the host has not started (rules R26, R160). Safe: nothing is claimed to
  follow. -/
  | noStepBeforeStart
  /-- Raised by `step` alone, in a state that has executed `HLT`. Safe: nothing is claimed to follow. -/
  | noStepWhenHalted
  /-- Raised by `step` alone, in a state that has raised a fault. Safe: nothing is claimed to follow. -/
  | noStepWhenFaulted
  deriving DecidableEq, Repr

/-- Why an instruction has no meaning. -/
inductive Refusal where
  /-- Raised by `exec`'s arm of an instruction not yet modelled. Safe. No arm raises it: every instruction has its
  meaning. -/
  | notModelled (mnemonic : String)
  deriving DecidableEq, Repr

/-- The machine after reset (rules R26, R160): not yet running; the host loads the image and starts the run. -/
def State.reset : State where
  mem := []
  regs := #v[0#8, 0#8, 0#8, 0#8, 0#8, 0#8, 0#8, Config.spReset]
  pc := Config.pcReset
  runState := .notStarted
  fault := none
  out := []

end Sys2Proof.Machine
end

