-- ==== Sys2Proof/Machine/Flags.lean ====
section
/-! DEFINITION. What the ALU computes and what it signals (spec/42_alu.md rules R95, R99). The machine has no flags, no
condition codes and no predicates (spec/10_state.md rule R21): an ALU operation signals NOTHING, no carry, no overflow,
no zero, so this file holds results and no flag computation. -/

namespace Sys2Proof.Machine

/-- The name of an ALU operation (rule R95). -/
inductive AluOp where
  /-- Multiply: the operation `MUL` requests. -/
  | mul
  /-- Add: an operation of the ALU that no opcode requests (rule R97, decision D15). -/
  | add
  /-- Any other name: unsupported, requested by no handler (rule R98). -/
  | other
  deriving DecidableEq, Repr

/-- The exact result of an ALU operation on two unsigned operands, before the register write truncates it to 8 bits;
`none` where the operation is unsupported (rule R95). -/
def AluOp.result (op : AluOp) (va vb : Byte) : Option Nat :=
  match op with
  | .mul => some (va.toNat * vb.toNat)
  | .add => some (va.toNat + vb.toNat)
  | .other => none

end Sys2Proof.Machine
end

