-- ==== Sys2Proof/Syntax.lean ====
section
/-! DEFINITION. The six instructions (spec/30_encoding.md rule R54). Operands are the WHOLE operand bytes (rules R53,
R56): a register operand of 8 or more is an instruction like any other, whose execution raises InvalidRegister. -/

namespace Sys2Proof

/-- One constructor per row of spec/opcode_table.json, in the table's order. -/
inductive Instr where
  /-- `LDI r, v`, opcode 0x82 (rule R90). -/
  | ldi (r v : Byte)
  /-- `PRN r`, opcode 0x47 (rule R115). -/
  | prn (r : Byte)
  /-- `HLT`, opcode 0x01 (rule R117). -/
  | hlt
  /-- `MUL ra, rb`, opcode 0xA2 (rule R96). -/
  | mul (ra rb : Byte)
  /-- `PUSH r`, opcode 0x45 (rule R106). -/
  | push (r : Byte)
  /-- `POP r`, opcode 0x46 (rule R107). -/
  | pop (r : Byte)
  deriving DecidableEq, Repr

end Sys2Proof
end

