-- ==== Sys2Proof/WellFormed.lean ====
section
/-! DEFINITION. Well-formed instructions: every register operand names one of the eight slots (spec/10_state.md rule
R14, spec/30_encoding.md rule R61). An ill-formed instruction can be encoded and decoded; executing it raises
InvalidRegister (rule R53). Every immediate 0 to 255 is legal (rule R57), so `LDI`'s second operand has no check. -/

namespace Sys2Proof

/-- A register operand byte is valid when it is in 0 .. 7; it is not masked (rule R14). -/
def validReg (b : Byte) : Bool := b.toNat < Config.numRegs

/-- Every register operand of the instruction is valid. -/
def Instr.wellFormed : Instr → Bool
  | .ldi r _ => validReg r
  | .prn r => validReg r
  | .hlt => true
  | .mul ra rb => validReg ra && validReg rb
  | .push r => validReg r
  | .pop r => validReg r

end Sys2Proof
end

