-- ==== Sys2Proof/Decode.lean ====
section
/-! DEFINITION. The dispatch table, the decoder, the encoder (spec/30_encoding.md). -/

namespace Sys2Proof

/-- What a dispatch-table entry selects, by instruction format (rule R51): the format says how many operand bytes
follow the opcode byte, and the payload makes the instruction from them, operand A first. -/
inductive Entry where
  /-- Format F0: the opcode byte alone. -/
  | f0 (i : Instr)
  /-- Format F1: operand A follows. -/
  | f1 (make : Byte → Instr)
  /-- Format F2: operand A, then operand B follow. -/
  | f2 (make : Byte → Byte → Instr)

/-- The instruction length an entry declares: 1 plus its number of operands (rules R50, R52). -/
def Entry.len : Entry → Nat
  | .f0 _ => 1
  | .f1 _ => 2
  | .f2 _ => 3

/-- One row of the dispatch table. The whole first byte must equal `opcode` (mask 0xFF, rule R54). -/
structure Row where
  opcode : Byte
  mnemonic : String
  entry : Entry

/-- The dispatch table: exactly these six entries (rule R54). -/
def dispatchTable : List Row :=
  [ ⟨0x82#8, "LDI", .f2 .ldi⟩,
    ⟨0x47#8, "PRN", .f1 .prn⟩,
    ⟨0x01#8, "HLT", .f0 .hlt⟩,
    ⟨0xA2#8, "MUL", .f2 .mul⟩,
    ⟨0x45#8, "PUSH", .f1 .push⟩,
    ⟨0x46#8, "POP", .f1 .pop⟩ ]

/-- The first row of a table whose opcode is the byte. -/
def lookupRow (op : Byte) : List Row → Option Row
  | [] => none
  | r :: rest => if r.opcode = op then some r else lookupRow op rest

/-- DISPATCH: a total function of the 256 byte values (rule R58); `none` for every byte but the six (rule R55). -/
def dispatch (op : Byte) : Option Row := lookupRow op dispatchTable

/-- Why a byte sequence is no instruction. -/
inductive DecodeError where
  /-- The sequence is empty: there is no opcode byte. -/
  | noOpcode
  /-- The first byte has no dispatch-table entry (rule R55). -/
  | invalidOpcode (op : Byte)
  /-- The sequence ends before operand A, which the entry calls for (rule R74). -/
  | noOperandA
  /-- The sequence ends before operand B, which the entry calls for (rule R74). -/
  | noOperandB
  deriving DecidableEq, Repr

/-- Decode the instruction at the head of a byte sequence; the answer holds the bytes after it. Only the bytes the
entry's length calls for are looked at, and an operand's value never changes the decoding (rules R57, R60, R74). -/
def decode : List Byte → Except DecodeError (Instr × List Byte)
  | [] => .error .noOpcode
  | op :: rest =>
    match (dispatch op).map Row.entry, rest with
    | none, _ => .error (.invalidOpcode op)
    | some (.f0 i), rest => .ok (i, rest)
    | some (.f1 make), a :: rest => .ok (make a, rest)
    | some (.f2 make), a :: b :: rest => .ok (make a b, rest)
    | some (.f2 _), [_] => .error .noOperandB
    | some _, [] => .error .noOperandA

/-- The opcode byte of an instruction (rule R54). -/
def Instr.opcode : Instr → Byte
  | .ldi _ _ => 0x82#8
  | .prn _ => 0x47#8
  | .hlt => 0x01#8
  | .mul _ _ => 0xA2#8
  | .push _ => 0x45#8
  | .pop _ => 0x46#8

/-- The operand bytes of an instruction, operand A first (rule R35). -/
def Instr.operands : Instr → List Byte
  | .ldi r v => [r, v]
  | .prn r => [r]
  | .hlt => []
  | .mul ra rb => [ra, rb]
  | .push r => [r]
  | .pop r => [r]

/-- The bytes of an instruction, in ascending address order (rules R50, R51). -/
def encode (i : Instr) : List Byte := i.opcode :: i.operands

/-- The byte length of an instruction, the one the sequencer adds (rule R76). -/
def Instr.length : Instr → Nat
  | .ldi _ _ => 3
  | .prn _ => 2
  | .hlt => 1
  | .mul _ _ => 3
  | .push _ => 2
  | .pop _ => 2

/-- The mnemonic of an instruction, as the opcode table spells it (rule R54). -/
def Instr.mnemonic : Instr → String
  | .ldi _ _ => "LDI"
  | .prn _ => "PRN"
  | .hlt => "HLT"
  | .mul _ _ => "MUL"
  | .push _ => "PUSH"
  | .pop _ => "POP"

/-- The bytes of a numbered instruction word: bit 0 is the least significant bit of the first byte, byte `k` is bits
8k+7 .. 8k; the bits from `nbits` up are 0. As many bytes as the longest instruction has. -/
def tableBytes (nbits w : Nat) : List Byte :=
  [ BitVec.ofNat 8 (w % 2 ^ nbits),
    BitVec.ofNat 8 (w % 2 ^ nbits / 2 ^ 8),
    BitVec.ofNat 8 (w % 2 ^ nbits / 2 ^ 16) ]

/-- What the decoder reads from an instruction whose bits are `w`, numbered as spec/opcode_table.json numbers them. -/
def decodeTableWord (nbits w : Nat) : Option Instr :=
  match decode (tableBytes nbits w) with
  | .ok (i, _) => some i
  | .error _ => none

end Sys2Proof
end

