-- ==== Sys2Proof/Machine/Ops.lean ====
section
/-! DEFINITION. The named operations over memory, registers and the output stream (spec/00_scope.md section 5), taking
a fault (spec/60_exceptions.md rule R136), and the program counter sequencer (spec/40_engine.md rule R76). -/

namespace Sys2Proof.Machine

/-! ### The memory array -/

/-- The content of cell `a`: 0 where nothing is listed (rules R26, R38). -/
def Memory.read : Memory → Nat → Byte
  | [], _ => 0#8
  | (b, v) :: rest, a => if b = a then v else Memory.read rest a

/-- Put a cell before the first listed address above it. -/
def Memory.insert (a : Nat) (v : Byte) : Memory → Memory
  | [] => [(a, v)]
  | (b, w) :: rest => if a < b then (a, v) :: (b, w) :: rest else (b, w) :: Memory.insert a v rest

/-- Remove every entry of address `a`. -/
def Memory.erase (m : Memory) (a : Nat) : Memory := m.filter fun c => c.1 ≠ a

/-- `M[a] <- v`, keeping the canonical form: writing 0 removes the entry. -/
def Memory.write (m : Memory) (a : Nat) (v : Byte) : Memory :=
  if v = 0#8 then m.erase a else Memory.insert a v (m.erase a)

/-- The canonical form: strictly rising addresses, all below MEM_SIZE, no entry equal to what an unlisted address
reads as. Equal memories are then equal lists. -/
abbrev Memory.wf (m : Memory) : Prop :=
  m.Pairwise (fun c d => c.1 < d.1) ∧ ∀ c ∈ m, c.1 < Config.memSize ∧ c.2 ≠ 0#8

/-! ### Raising a fault -/

/-- `raise C(info)`: what abandons an instruction (00_scope.md section 5). -/
structure Raised where
  cause : Cause
  info : Option Int
  deriving DecidableEq, Repr

/-- The state with its memory replaced. -/
def State.setMem (s : State) (m : Memory) : State := { s with mem := m }

/-- `MemRead(addr, 1)` (20_memory.md rule R31). The address is an integer and never wraps (rule R33). -/
def memRead (addr : Int) (s : State) : Except Raised Byte :=
  if addr < 0 ∨ addr ≥ Config.memSize then .error ⟨.outOfBounds, some addr⟩ else .ok (s.mem.read addr.toNat)

/-- `MemWrite(addr, 1, v)` (20_memory.md rule R32): the value is truncated to 8 bits (decision D14). -/
def memWrite (addr : Int) (v : Nat) (s : State) : Except Raised State :=
  if addr < 0 ∨ addr ≥ Config.memSize then .error ⟨.outOfBounds, some addr⟩
  else .ok (s.setMem (s.mem.write addr.toNat (BitVec.ofNat 8 v)))

/-! ### The register file and the output stream -/

/-- `x[i]` for a valid index. -/
def State.reg (s : State) (i : RegIdx) : Byte := s.regs[i]

/-- `x[i] <- v mod 256` for a valid index (10_state.md rule R15). -/
def State.setReg (s : State) (i : RegIdx) (v : Nat) : State := { s with regs := s.regs.set i (BitVec.ofNat 8 v) }

/-- The slot that holds the stack pointer (10_state.md rule R12). -/
def spIdx : RegIdx := 7

/-- `emit(v)`: append one value to the output stream; it never blocks or fails (10_state.md rule R23). -/
def State.emit (s : State) (v : Byte) : State := { s with out := s.out ++ [v] }

/-! ### Taking a fault; the sequencer -/

/-- `pc <- target`. -/
def State.setPc (s : State) (target : PcWord) : State := { s with pc := target }

/-- `run_state <- r`. -/
def State.setRunState (s : State) (r : RunState) : State := { s with runState := r }

/-- What a fault does to the state at the START of the step (60_exceptions.md rule R136): nothing the instruction wrote
is kept, the run state becomes Faulted, the record takes the cause, the pc of the instruction and the info. There is no
handler and no return from a fault (rule R139): only reset leaves Faulted. -/
def State.takeFault (s : State) (e : Raised) : State :=
  { s with runState := .faulted, fault := some ⟨e.cause, s.pc, e.info⟩ }

/-- How a handler that raises nothing ends (40_engine.md rule R75), with the state as the handler left it. -/
inductive HandlerEnd where
  /-- It completes and the instruction's length applies. -/
  | next (s : State)
  /-- It asks for a jump: the contract of 45_control_transfer.md rule R126; no handler returns it. -/
  | jump (t : PcWord) (s : State)
  /-- It signals Halt. -/
  | halt (s : State)
  deriving DecidableEq, Repr

/-- The end of a step that began in `s` with an instruction of `len` bytes (40_engine.md rules R71, R76, R77): the
sequencer writes the pc once, after the handler; not for Halt, not for a fault. The sum is formed in 9 bits. -/
def sequence (len : Nat) (s : State) : Except Raised HandlerEnd → State
  | .ok (.next s') => s'.setPc (s.pc + BitVec.ofNat 9 len)
  | .ok (.jump t s') => s'.setPc t
  | .ok (.halt s') => s'.setRunState .halted
  | .error e => s.takeFault e

end Sys2Proof.Machine
end

