-- ==== Sys2Proof/Machine/Operands.lean ====
section
/-! DEFINITION. Every operand form: the register operand and the immediate (spec/30_encoding.md rules R53, R56), and
the two stack addresses with their bounds (spec/43_stack.md rules R105 to R108). -/

namespace Sys2Proof.Machine

/-- A register operand: the whole byte, unsigned, not masked; 8 or more raises InvalidRegister (rules R14, R53). -/
def regOperand (b : Byte) : Except Raised RegIdx :=
  if h : b.toNat < 8 then .ok ⟨b.toNat, h⟩ else .error ⟨.invalidRegister, some (b.toNat : Int)⟩

/-- An immediate operand: the whole byte, unsigned, not extended or scaled (rule R56). -/
def immOperand (b : Byte) : Nat := b.toNat

/-- The address PUSH stores to: the pre-decremented stack pointer, an integer; below 0 it is out of bounds and does not
wrap (rules R106, R108). -/
def pushAddr (s : State) : Except Raised Int :=
  let t : Int := (s.reg spIdx).toNat - 1
  if t < 0 then .error ⟨.outOfBounds, some (-1)⟩ else .ok t

/-- The address POP loads from: the stack pointer; at or above SP_RESET, whatever software has since loaded into
register 7, the stack is empty (rules R107, R108, decision D6). -/
def popAddr (s : State) : Except Raised Int :=
  let sp := (s.reg spIdx).toNat
  if sp ≥ Config.spReset.toNat then .error ⟨.outOfBounds, some (sp : Int)⟩ else .ok sp

end Sys2Proof.Machine
end

