-- ==== Sys2Proof/Machine/Alu.lean ====
section
/-! DEFINITION. The ALU and MUL (spec/42_alu.md). -/

namespace Sys2Proof.Machine

/-- `ALU(opname, ra, rb)` (rule R95): both operands are read before the write, the result goes to the first register,
truncated to 8 bits; operand A is checked first. Nothing else is written. -/
def alu (op : AluOp) (a b : Byte) (s : State) : Except Raised State := do
  let ra ← regOperand a
  let rb ← regOperand b
  match op.result (s.reg ra) (s.reg rb) with
  | some n => return s.setReg ra n
  | none => throw ⟨.unsupportedALUOperation, none⟩

/-- The handler of `MUL` (rule R96). -/
def handlerMul (a b : Byte) (s : State) : Except Raised HandlerEnd := do
  let s' ← alu .mul a b s
  return .next s'

/-- `MUL a, b` (rule R96). -/
def execMul (a b : Byte) (s : State) : Host.Outcome State Fault Refusal :=
  .next (sequence (Instr.mul a b).length s (handlerMul a b s))

end Sys2Proof.Machine
end

