-- ==== Sys2Proof/Machine/LoadImmediate.lean ====
section
/-! DEFINITION. Load immediate: LDI (spec/41_load_immediate.md). -/

namespace Sys2Proof.Machine

/-- The handler of `LDI` (rule R90): `x[a] <- b`. -/
def handlerLdi (a b : Byte) (s : State) : Except Raised HandlerEnd := do
  let r ← regOperand a
  return .next (s.setReg r (immOperand b))

/-- `LDI a, b` (rule R90). -/
def execLdi (a b : Byte) (s : State) : Host.Outcome State Fault Refusal :=
  .next (sequence (Instr.ldi a b).length s (handlerLdi a b s))

end Sys2Proof.Machine
end

