-- ==== Sys2Proof/Machine/Stack.lean ====
section
/-! DEFINITION. The stack instructions PUSH and POP (spec/43_stack.md). -/

namespace Sys2Proof.Machine

/-- The handler of `PUSH` (rule R106). The register is read after the stack pointer was decremented, so `PUSH R7`
stores the decremented pointer (rule R110). -/
def handlerPush (a : Byte) (s : State) : Except Raised HandlerEnd := do
  let r ← regOperand a
  let t ← pushAddr s
  let s1 := s.setReg spIdx t.toNat
  let s2 ← memWrite t (s1.reg r).toNat s1
  return .next s2

/-- The handler of `POP` (rule R107). The stack pointer is read again after the register was written, so `POP R7` ends
with the loaded value plus one, modulo 256 (rule R110). -/
def handlerPop (a : Byte) (s : State) : Except Raised HandlerEnd := do
  let r ← regOperand a
  let sp ← popAddr s
  let v ← memRead sp s
  let s1 := s.setReg r v.toNat
  return .next (s1.setReg spIdx ((s1.reg spIdx).toNat + 1))

/-- `PUSH a` (rule R106). -/
def execPush (a : Byte) (s : State) : Host.Outcome State Fault Refusal :=
  .next (sequence (Instr.push a).length s (handlerPush a s))

/-- `POP a` (rule R107). -/
def execPop (a : Byte) (s : State) : Host.Outcome State Fault Refusal :=
  .next (sequence (Instr.pop a).length s (handlerPop a s))

end Sys2Proof.Machine
end

