-- ==== Sys2Proof/Machine/System.lean ====
section
/-! DEFINITION. Output and halt: PRN and HLT (spec/44_system.md). -/

namespace Sys2Proof.Machine

/-- The handler of `PRN` (rule R115): `emit(x[a])`. -/
def handlerPrn (a : Byte) (s : State) : Except Raised HandlerEnd := do
  let r ← regOperand a
  return .next (s.emit (s.reg r))

/-- The handler of `HLT` (rule R117). -/
def handlerHlt (s : State) : Except Raised HandlerEnd := .ok (.halt s)

/-- `PRN a` (rule R115). -/
def execPrn (a : Byte) (s : State) : Host.Outcome State Fault Refusal :=
  .next (sequence (Instr.prn a).length s (handlerPrn a s))

/-- `HLT` (rule R117): its length is never applied, the pc stays at the HLT (decision D7). -/
def execHlt (s : State) : Host.Outcome State Fault Refusal :=
  .next (sequence Instr.hlt.length s (handlerHlt s))

end Sys2Proof.Machine
end

