-- ==== Sys2Proof/Machine/Dispatch.lean ====
section
/-! DEFINITION. What each instruction does, given that the engine is Running and has fetched it (spec/40_engine.md rule
R75): one arm per constructor, in the opcode table's order. -/

namespace Sys2Proof.Machine

/-- Execute a fetched instruction: the handler, then the sequencer or the fault (rule R71). The run state is not looked
at here: the step requires Running before it fetches (rule R70). -/
def exec (i : Instr) (s : State) : Host.Outcome State Fault Refusal :=
  match i with
  | .ldi r v => Sys2Proof.Machine.execLdi r v s
  | .prn r => Sys2Proof.Machine.execPrn r s
  | .hlt => Sys2Proof.Machine.execHlt s
  | .mul ra rb => Sys2Proof.Machine.execMul ra rb s
  | .push r => Sys2Proof.Machine.execPush r s
  | .pop r => Sys2Proof.Machine.execPop r s

end Sys2Proof.Machine
end

