-- ==== Sys2Proof/Machine/Engine.lean ====
section
/-! DEFINITION. The fetch-decode-execute step (spec/40_engine.md rules R70 to R76). -/

namespace Sys2Proof.Machine

/-- Fetch and decode (rules R72, R73, R74): read the opcode byte at the pc, look it up, and only then read the operand
bytes its entry has, operand A first. Addresses are integers and do not wrap. -/
def fetch (s : State) : Except Raised Instr := do
  let p : Int := s.pc.toNat
  let op ← memRead p s
  match (dispatch op).map Row.entry with
  | none => throw ⟨.invalidOpcode, some (op.toNat : Int)⟩
  | some (.f0 i) => return i
  | some (.f1 make) =>
    let a ← memRead (p + 1) s
    return make a
  | some (.f2 make) =>
    let a ← memRead (p + 1) s
    let b ← memRead (p + 2) s
    return make a b

/-- One step of a Running engine (rule R71). A fault of the fetch is taken like one of a handler. -/
def runningStep (s : State) : Host.Outcome State Fault Refusal :=
  match fetch s with
  | .ok i => exec i s
  | .error e => .next (s.takeFault e)

/-- The engine takes a step only while it is Running (rule R70): none before the host has started it
(spec/10_state.md rule R26), none in a terminal state. -/
def engineStep (s : State) : Host.Outcome State Fault Refusal :=
  match s.runState with
  | .notStarted => .fault .noStepBeforeStart
  | .running => runningStep s
  | .halted => .fault .noStepWhenHalted
  | .faulted => .fault .noStepWhenFaulted

/-- Write bytes at consecutive addresses from `a`, as the loader does (70_reset_and_hazards.md rule R167); a byte beyond
the last cell has no place and is dropped. -/
def placeBytes : List Byte → Nat → Memory → Memory
  | [], _, m => m
  | b :: bs, a, m => placeBytes bs (a + 1) (if a < Config.memSize then m.write a b else m)

end Sys2Proof.Machine
end

