-- ==== Sys2Proof/Machine/Step.lean ====
section
/-! DEFINITION. One step of the machine, and the placing of an instruction where the step fetches. -/

namespace Sys2Proof.Machine

/-- One step (spec/40_engine.md rule R71). -/
def step (s : State) : Host.Outcome State Fault Refusal := engineStep s

/-- `s` with the bytes of a numbered instruction word in memory from the pc on, and started: what the host's load port
and start do from the reset state (70_reset_and_hazards.md rules R165, R167). Assumption 1. -/
def State.withFetchWord (s : State) (nbits w : Nat) : State :=
  { s with mem := placeBytes (tableBytes nbits w) s.pc.toNat s.mem, runState := .running }

end Sys2Proof.Machine
end

