-- ==== Sys2Proof/Machine/HostPort.lean ====
section
/-! DEFINITION. Where the engine meets its host (spec/70_reset_and_hazards.md rules R160 to R171): reset, the load port,
start, the launch state, the end status. The output stream and the status are fields of `State`. -/

namespace Sys2Proof.Machine

/-- An engine as its host sees it: its state, and whether a load into it has failed, so that it is never started (rule
R168). The flag is not architectural state (10_state.md rule R10): it says which host moves are usable (assumption 9). -/
structure Session where
  loadFailed : Bool
  state : State
  deriving DecidableEq, Repr

/-- The moves of the host (rule R165). Reading the status changes nothing and is no move. -/
inductive HostMove where
  /-- Reset; usable at any time. -/
  | reset
  /-- One write through the load port; usable after reset and before start. -/
  | load (addr : Nat) (b : Byte)
  /-- Start; usable once, after load. -/
  | start
  deriving DecidableEq, Repr

/-- Reset, from any state (rules R160, R161): every piece of state at its reset value, memory and output included, not
yet running. The only event that leaves Halted or Faulted (rule R177). -/
def hostReset : Session := ⟨false, .reset⟩

/-- The load port and start are usable after reset and before start (rule R165), unless a load has failed: the engine is
then never started (rule R168). DESIGN CHOICE: nor is a further load usable then (assumption 9). -/
abbrev Session.loadable (x : Session) : Prop := x.state.runState = .notStarted ∧ x.loadFailed = false

/-- The effect of a host move; `none` where the move is not usable. Once the engine is started nothing but reset is
(rules R171, R177). A load outside 0 .. 255 is a load failure (rule R168). -/
def hostMove (m : HostMove) (x : Session) : Option Session :=
  match m with
  | .reset => some hostReset
  | .load addr b =>
    if x.loadable then
      match memWrite addr b.toNat x.state with
      | .ok s => some ⟨false, s⟩
      | .error _ => some ⟨true, x.state⟩
    else none
  | .start => if x.loadable then some ⟨false, x.state.setRunState .running⟩ else none

/-- The image of a program loaded from address `a` on, byte by byte through the load port (rule R167); an image that
would write beyond the last cell cannot be loaded (rule R168). -/
def loadImage : List Byte → Nat → State → Except Raised State
  | [], _, s => .ok s
  | b :: bs, a, s => do
    let s' ← memWrite a b.toNat s
    loadImage bs (a + 1) s'

/-- The launch state of an image (rule R166): reset, load from LOAD_BASE, start; `none` for an image that cannot be
loaded (rule R168, decision D11). -/
def launch (image : List Byte) : Option State :=
  match loadImage image Config.loadBase State.reset with
  | .ok s => some (s.setRunState .running)
  | .error _ => none

/-- The numeric code of a cause (60_exceptions.md rule R130). -/
def Cause.code : Cause → BitVec 3
  | .invalidOpcode => 1#3
  | .outOfBounds => 2#3
  | .invalidRegister => 3#3
  | .unsupportedALUOperation => 4#3

/-- The cause code the status port shows: 0 while there is no fault (rule R130). -/
def State.causeCode (s : State) : BitVec 3 :=
  match s.fault with
  | none => 0#3
  | some f => f.cause.code

/-- The process exit code the host gives a finished run (rule R170): 0 for Halted, 1 for InvalidOpcode, the host's
parameter for any other fault (D13, OPEN; assumption 7); none before the end of a run. -/
def exitCode (s : State) : Option Nat :=
  match s.runState, s.fault with
  | .notStarted, _ => none
  | .running, _ => none
  | .halted, _ => some 0
  | .faulted, some ⟨.invalidOpcode, _, _⟩ => some 1
  | .faulted, _ => some Config.exitCodeOtherFault

/-- The process exit code when the program file is not found; no run takes place (rule R170). -/
def exitCodeFileNotFound : Nat := 2

/-- The process exit code of a malformed program line; no run takes place, and the host's parameter applies (rule
R170). -/
def exitCodeMalformedText : Nat := Config.exitCodeOtherFault

end Sys2Proof.Machine
end

