-- ==== Sys2Proof/Machine/Text.lean ====
section
/-! DEFINITION. The texts at the engine's boundary: the decimal rendering of emitted values (spec/44_system.md rule
R116), the program text format and the assembler style (spec/30_encoding.md rule R61). The loader's text is outside the
engine (spec/00_scope.md rule R3); no rule of the engine depends on this file. Texts are lists of characters. -/

namespace Sys2Proof.Machine

/-- The decimal digit of a number below ten. -/
def digitChar (n : Nat) : Char := Char.ofNat (48 + n)

/-- The shortest decimal numeral of a byte, unsigned, no leading zeros (rule R116). -/
def decimal (v : Byte) : List Char :=
  let n := v.toNat
  if n < 10 then [digitChar n]
  else if n < 100 then [digitChar (n / 10), digitChar (n % 10)]
  else [digitChar (n / 100), digitChar (n / 10 % 10), digitChar (n % 10)]

/-- What the host prints for an output stream: one numeral and one newline for each value, in order (rule R116). -/
def renderOut (out : List Byte) : List Char := out.flatMap fun v => decimal v ++ ['\n']

/-- An operand list in the style of rule R61: a comma between operands. -/
def commaSeparated : List (List Char) → List Char
  | [] => []
  | [t] => t
  | t :: rest => t ++ ',' :: commaSeparated rest

/-- A register in the style of rule R61: `Rn`, with `n` in 0 .. 7. DESIGN CHOICE: an operand byte of 8 to 255, which the
style does not write, is written in the same way, `R8` to `R255` (assumption 13). -/
def asmReg (r : Byte) : List Char := 'R' :: decimal r

/-- The operands of an instruction in the style of rule R61, destination first. -/
def asmOperands : Instr → List (List Char)
  | .ldi r v => [asmReg r, decimal v]
  | .prn r => [asmReg r]
  | .hlt => []
  | .mul ra rb => [asmReg ra, asmReg rb]
  | .push r => [asmReg r]
  | .pop r => [asmReg r]

/-- An instruction in the style of rule R61: `LDI R0,8`, `MUL R0,R1`, `HLT`. -/
def asm (i : Instr) : List Char :=
  match asmOperands i with
  | [] => i.mnemonic.toList
  | os => i.mnemonic.toList ++ ' ' :: commaSeparated os

/-- What one line of a program text yields (rule R61). -/
inductive LineResult where
  /-- A blank or comment-only line: no byte. -/
  | skip
  /-- A binary literal: exactly one byte of the image. -/
  | byte (b : Byte)
  /-- Non-binary content before any `#`: a fatal load error. -/
  | malformed
  /-- A case the source does not answer (spec/91_not_in_source.md N14): a literal longer than 8 characters, or spaces
  that no example of the spec shows. Safe: nothing is claimed of it. -/
  | notStated
  deriving DecidableEq, Repr

/-- The value of a binary numeral, most significant digit first. -/
def binaryValue (cs : List Char) : Nat := cs.foldl (fun n c => 2 * n + if c = '1' then 1 else 0) 0

/-- A text without the spaces at its end. -/
def dropTrailingSpaces (cs : List Char) : List Char := (cs.reverse.dropWhile (· = ' ')).reverse

/-- One line of the program text (rule R61): up to 8 binary digits, a shorter literal valued as if zeros stood on its
left, optionally followed by a comment; spaces between the literal and the `#` as in example S10 (assumption 8). -/
def readLine (line : List Char) : LineResult :=
  let content := line.takeWhile (· ≠ '#')
  let literal := dropTrailingSpaces content
  if literal = [] then .skip
  else if content.any (fun c => c ≠ '0' && c ≠ '1' && c ≠ ' ') then .malformed
  else if literal.any (· = ' ') || literal.length > 8 then .notStated
  else if content ≠ literal && !line.contains '#' then .notStated
  else .byte (BitVec.ofNat 8 (binaryValue literal))

/-- What the loader makes of a program text. -/
inductive TextResult where
  /-- The image: one byte for each line that yields one, in file order (rule R35). -/
  | image (bs : List Byte)
  /-- A malformed line: a fatal load error (rule R61). -/
  | malformed
  /-- A line whose reading the source does not state (N14). Safe: nothing is claimed of it. -/
  | notStated
  deriving DecidableEq, Repr

/-- Read a program text line by line; a malformed line is a fatal load error (rule R61). DESIGN CHOICE: the first line that
is no byte and no blank decides, so that a text with a line the source does not answer (N14) before a malformed one is
`notStated` (assumption 8). -/
def readText : List (List Char) → TextResult
  | [] => .image []
  | line :: rest =>
    match readLine line with
    | .skip => readText rest
    | .malformed => .malformed
    | .notStated => .notStated
    | .byte b =>
      match readText rest with
      | .image bs => .image (b :: bs)
      | r => r

end Sys2Proof.Machine
end

