-- ==== Sys2Proof/Safety.lean ====
section
/-! DEFINITION. The terms claims are stated in: what a sound state is, and when a run has ended. -/

namespace Sys2Proof.Machine

/-- The `info` a fault record may hold, cause by cause (spec/10_state.md rule R20, spec/60_exceptions.md rule R131).
Cause 4 has none here: no step sets it (rule R134). -/
def FaultRecord.inRange (f : FaultRecord) : Prop :=
  match f.cause, f.info with
  | .invalidOpcode, some n => 0 ≤ n ∧ n ≤ 255
  | .outOfBounds, some n => n = -1 ∨ n = 256 ∨ (Config.spReset.toNat ≤ n ∧ n ≤ 255)
  | .invalidRegister, some n => 8 ≤ n ∧ n ≤ 255
  | _, _ => False

/-- The invariant of the engine: memory is canonical, the pc is in 0 .. 256 (rule R16), there is a fault record exactly
when the engine is Faulted, and it names the pc and an info in range (rule R20); before start everything but memory,
which the load port writes, is as reset leaves it (rules R26, R165). -/
structure State.Inv (s : State) : Prop where
  memCanonical : s.mem.wf
  pcInRange : s.pc.toNat ≤ Config.memSize
  faultIffFaulted : s.fault.isSome = true ↔ s.runState = .faulted
  faultAtPc : ∀ f, s.fault = some f → f.atPc = s.pc
  faultInRange : ∀ f, s.fault = some f → f.inRange
  resetBeforeStart : s.runState = .notStarted → s = { State.reset with mem := s.mem }

/-- A run has ended: the state is terminal (spec/70_reset_and_hazards.md rule R172). -/
def State.ended (s : State) : Prop := s.runState = .halted ∨ s.runState = .faulted

/-- The bytes of `n` cells from address `a` on, in ascending order. -/
def State.bytesAt (s : State) (a n : Nat) : List Byte := (List.range n).map fun k => s.mem.read (a + k)

end Sys2Proof.Machine
end

