-- ==== Sys2Proof/Certificates/Slice0/Obligations.lean ====
section
/-! DEFINITION. The statements for the provers, each formalising numbered rules of spec/. Each `def Obligations.<Name>`
is listed in OBLIGATIONS.json with the rules it states. Frames are written out: registers through `State.reg`, memory
through `Memory.read`. -/

open Sys2Proof Sys2Proof.Machine

/-! ### Encoding -/

/-- Words written out from the encodings of rule R54, one for each instruction, decode to what they stand for; 0x00 and
0xA0 are no opcodes (rule R55). -/
def Obligations.SourceWordsDecode : Prop :=
  decode [0b10000010#8, 0x03#8, 0xFF#8] = .ok (.ldi 3#8 255#8, []) ∧
  decode [0b01000111#8, 0x05#8] = .ok (.prn 5#8, []) ∧
  decode [0b00000001#8] = .ok (.hlt, []) ∧
  decode [0b10100010#8, 0x00#8, 0x07#8] = .ok (.mul 0#8 7#8, []) ∧
  decode [0b01000101#8, 0x07#8] = .ok (.push 7#8, []) ∧
  decode [0b01000110#8, 0x09#8, 0x01#8] = .ok (.pop 9#8, [0x01#8]) ∧
  decode [0x00#8] = .error (.invalidOpcode 0x00#8) ∧
  decode [0xA0#8, 0x00#8, 0x01#8] = .error (.invalidOpcode 0xA0#8)

/-- Decode and encode agree, in both directions and for every operand byte: a byte sequence decodes to an instruction,
leaving some bytes over, exactly when it is the instruction's encoding followed by those bytes (rules R50 to R60). -/
def Obligations.DecodeExactlyTheEncodings : Prop :=
  ∀ (bytes : List Byte) (i : Instr) (rest : List Byte), decode bytes = .ok (i, rest) ↔ bytes = encode i ++ rest

/-- An encoding, numbered as the opcode table numbers its bits (first byte least significant), is read back by
`decodeTableWord`. -/
def Obligations.TableWordReadsEncoding : Prop :=
  ∀ i : Instr, decodeTableWord (8 * i.length) ((encode i).foldr (fun b n => b.toNat + 256 * n) 0) = some i

/-! ### The step: fetch, decode, execute -/

/-- A step of a Running engine runs the instruction that the bytes from the pc on decode to, whatever bytes follow it:
fetching adds nothing around `exec` (rules R71, R74, R76). -/
def Obligations.StepRunsDecodedInstruction : Prop :=
  ∀ (s : State) (n : Nat) (i : Instr) (rest : List Byte), s.runState = .running → s.pc.toNat + n ≤ 256 →
    decode (s.bytesAt s.pc.toNat n) = .ok (i, rest) → step s = exec i s

/-- An instruction placed by `withFetchWord` is the one the very next step runs. -/
def Obligations.PlacedWordIsNextRun : Prop :=
  ∀ (s : State) (nbits w : Nat) (i : Instr), s.pc.toNat ≤ 253 → decodeTableWord nbits w = some i →
    step (s.withFetchWord nbits w) = exec i (s.withFetchWord nbits w)

/-- In a terminal state no step is defined (rule R70). -/
def Obligations.TerminalStatesTakeNoStep : Prop :=
  ∀ s : State, (s.runState = .halted → step s = .fault .noStepWhenHalted) ∧
    (s.runState = .faulted → step s = .fault .noStepWhenFaulted)

/-- A byte other than the six opcodes faults with InvalidOpcode in any cell, the last included, and changes nothing but
the run state and the fault record; no further instruction is executed, and the exit code is the documented 1 (rules R55,
R133; the code's value by rule R170). -/
def Obligations.InvalidOpcodeFaults : Prop :=
  ∀ s : State, s.runState = .running → s.pc.toNat ≤ 255 →
    s.mem.read s.pc.toNat ∉ [0x82#8, 0x47#8, 0x01#8, 0xA2#8, 0x45#8, 0x46#8] →
    ∃ t, step s = .next t ∧ step t = .fault .noStepWhenFaulted ∧ exitCode t = some 1 ∧
      t = { s with
        runState := .faulted
        fault := some ⟨.invalidOpcode, s.pc, some ((s.mem.read s.pc.toNat).toNat : Int)⟩ }

/-- The opcode fetch at a pc of 256 faults with OutOfBounds(256): nothing wraps (rules R18, R72). -/
def Obligations.FetchAtTopOfMemoryFaults : Prop :=
  ∀ s : State, s.runState = .running → s.pc = 256#9 →
    step s = .next { s with runState := .faulted, fault := some ⟨.outOfBounds, 256#9, some 256⟩ }

/-- Operand bytes are bounds-checked without wrap: a 2-byte instruction at 255 and a 3-byte instruction at 254 or 255
fault with OutOfBounds(256), whatever their operands would be. Where they lie inside memory the operands are the cells
after the opcode, A then B. Bytes an instruction does not have are not read: HLT halts at every address, 254 and 255
included, and a 2-byte instruction at 254 is executed (rule R74). -/
def Obligations.OperandFetchReadsOnlyOwnBytes : Prop :=
  ∀ s : State, s.runState = .running →
    (s.pc = 255#9 → s.mem.read 255 ∈ [0x82#8, 0x47#8, 0xA2#8, 0x45#8, 0x46#8] →
      step s = .next { s with runState := .faulted, fault := some ⟨.outOfBounds, 255#9, some 256⟩ }) ∧
    (s.pc = 254#9 → s.mem.read 254 ∈ [0x82#8, 0xA2#8] →
      step s = .next { s with runState := .faulted, fault := some ⟨.outOfBounds, 254#9, some 256⟩ }) ∧
    (s.pc.toNat ≤ 255 → s.mem.read s.pc.toNat = 0x01#8 → step s = .next { s with runState := .halted }) ∧
    (s.pc.toNat ≤ 254 → s.mem.read s.pc.toNat = 0x47#8 → step s = exec (.prn (s.mem.read (s.pc.toNat + 1))) s) ∧
    (s.pc.toNat ≤ 254 → s.mem.read s.pc.toNat = 0x45#8 → step s = exec (.push (s.mem.read (s.pc.toNat + 1))) s) ∧
    (s.pc.toNat ≤ 254 → s.mem.read s.pc.toNat = 0x46#8 → step s = exec (.pop (s.mem.read (s.pc.toNat + 1))) s) ∧
    (s.pc.toNat ≤ 253 → s.mem.read s.pc.toNat = 0x82#8 →
      step s = exec (.ldi (s.mem.read (s.pc.toNat + 1)) (s.mem.read (s.pc.toNat + 2))) s) ∧
    (s.pc.toNat ≤ 253 → s.mem.read s.pc.toNat = 0xA2#8 →
      step s = exec (.mul (s.mem.read (s.pc.toNat + 1)) (s.mem.read (s.pc.toNat + 2))) s)

/-! ### What each instruction does, with its frame -/

/-- LDI with a valid register completes: the register holds the immediate, the pc advances by 3, and nothing else
changes (rule R91). -/
def Obligations.LdiWritesOneRegister : Prop :=
  ∀ (r v : Byte) (s : State) (h : r.toNat < 8), ∃ t, exec (.ldi r v) s = .next t ∧
    t.reg ⟨r.toNat, h⟩ = v ∧
    (∀ j : RegIdx, j.val ≠ r.toNat → t.reg j = s.reg j) ∧
    t.pc = s.pc + 3#9 ∧ (s.pc.toNat ≤ 253 → t.pc.toNat = s.pc.toNat + 3) ∧
    (∀ a, t.mem.read a = s.mem.read a) ∧
    t.runState = s.runState ∧ t.fault = s.fault ∧ t.out = s.out

/-- MUL with valid registers completes: the first register holds the product of the two old values modulo 256, also
where both are one register, the pc advances by 3, and nothing else changes (rule R100). -/
def Obligations.MulWritesTruncatedProduct : Prop :=
  ∀ (ra rb : Byte) (s : State) (ha : ra.toNat < 8) (hb : rb.toNat < 8), ∃ t, exec (.mul ra rb) s = .next t ∧
    (t.reg ⟨ra.toNat, ha⟩).toNat = ((s.reg ⟨ra.toNat, ha⟩).toNat * (s.reg ⟨rb.toNat, hb⟩).toNat) % 256 ∧
    (∀ j : RegIdx, j.val ≠ ra.toNat → t.reg j = s.reg j) ∧
    t.pc = s.pc + 3#9 ∧ (s.pc.toNat ≤ 253 → t.pc.toNat = s.pc.toNat + 3) ∧
    (∀ a, t.mem.read a = s.mem.read a) ∧
    t.runState = s.runState ∧ t.fault = s.fault ∧ t.out = s.out

/-- PUSH of a valid register with a non-zero stack pointer completes: the pointer goes down by 1, the cell it then
points at holds the register, which for R7 is the decremented pointer; the pc advances by 2, and no other register and
no other cell changes. The cell is the one `pushAddr` answers (rules R106, R110). -/
def Obligations.PushStoresOneCell : Prop :=
  ∀ (r : Byte) (s : State) (h : r.toNat < 8), s.reg spIdx ≠ 0#8 → ∃ t, exec (.push r) s = .next t ∧
    t.reg spIdx = s.reg spIdx - 1#8 ∧
    (∀ j : RegIdx, j ≠ spIdx → t.reg j = s.reg j) ∧
    t.mem.read ((s.reg spIdx).toNat - 1) = (if r.toNat = 7 then s.reg spIdx - 1#8 else s.reg ⟨r.toNat, h⟩) ∧
    pushAddr s = .ok (((s.reg spIdx).toNat - 1 : Nat) : Int) ∧
    (∀ a : Nat, pushAddr s = .ok (a : Int) → ∀ b : Nat, b ≠ a → t.mem.read b = s.mem.read b) ∧
    t.pc = s.pc + 2#9 ∧ (s.pc.toNat ≤ 254 → t.pc.toNat = s.pc.toNat + 2) ∧
    t.runState = s.runState ∧ t.fault = s.fault ∧ t.out = s.out

/-- POP into a valid register with the stack pointer below SP_RESET completes: into another register than R7 it loads
the cell the pointer points at and the pointer goes up by 1; POP R7 ends with the loaded value plus 1, modulo 256; the
pc advances by 2, and no other register and no cell changes (rules R107, R110). -/
def Obligations.PopLoadsOneCell : Prop :=
  ∀ (r : Byte) (s : State) (h : r.toNat < 8), (s.reg spIdx).toNat < 0xF4 → ∃ t, exec (.pop r) s = .next t ∧
    (r.toNat ≠ 7 → t.reg ⟨r.toNat, h⟩ = s.mem.read (s.reg spIdx).toNat ∧ t.reg spIdx = s.reg spIdx + 1#8) ∧
    (r.toNat = 7 → (t.reg spIdx).toNat = ((s.mem.read (s.reg spIdx).toNat).toNat + 1) % 256) ∧
    (∀ j : RegIdx, j.val ≠ r.toNat → j ≠ spIdx → t.reg j = s.reg j) ∧
    (∀ a, t.mem.read a = s.mem.read a) ∧
    t.pc = s.pc + 2#9 ∧ (s.pc.toNat ≤ 254 → t.pc.toNat = s.pc.toNat + 2) ∧
    t.runState = s.runState ∧ t.fault = s.fault ∧ t.out = s.out

/-- PRN of a valid register completes: the register's value is appended to the output, the pc advances by 2, and no
register and no cell changes (rule R115). -/
def Obligations.PrnAppendsRegister : Prop :=
  ∀ (r : Byte) (s : State) (h : r.toNat < 8), ∃ t, exec (.prn r) s = .next t ∧
    t.out = s.out ++ [s.reg ⟨r.toNat, h⟩] ∧
    (∀ j : RegIdx, t.reg j = s.reg j) ∧
    (∀ a, t.mem.read a = s.mem.read a) ∧
    t.pc = s.pc + 2#9 ∧ (s.pc.toNat ≤ 254 → t.pc.toNat = s.pc.toNat + 2) ∧
    t.runState = s.runState ∧ t.fault = s.fault

/-- HLT completes by setting the run state to Halted; the pc stays at the HLT, and no register, cell or output changes.
No step follows it, and the host's exit code is 0 (rule R118). -/
def Obligations.HltHaltsInPlace : Prop :=
  ∀ s : State, ∃ t, exec .hlt s = .next t ∧
    t.runState = .halted ∧ t.pc = s.pc ∧ (∀ j : RegIdx, t.reg j = s.reg j) ∧
    (∀ a, t.mem.read a = s.mem.read a) ∧ t.fault = s.fault ∧ t.out = s.out ∧
    step t = .fault .noStepWhenHalted ∧ exitCode t = some 0

/-- R7 as the explicit operand: PUSH R7 stores the decremented pointer; POP R7 ends with the loaded value plus 1, modulo
256. The meaning is one the spec marks as its own (43_stack.md section 4: 'The source does not discuss them', decision
D8). -/
def Obligations.PushAndPopOfStackPointer : Prop :=
  ∀ s : State,
    (s.reg spIdx ≠ 0#8 → ∃ t, exec (.push 7#8) s = .next t ∧
      (t.reg spIdx).toNat = (s.reg spIdx).toNat - 1 ∧
      (t.mem.read ((s.reg spIdx).toNat - 1)).toNat = (s.reg spIdx).toNat - 1) ∧
    ((s.reg spIdx).toNat < 0xF4 → ∃ t, exec (.pop 7#8) s = .next t ∧
      (t.reg spIdx).toNat = ((s.mem.read (s.reg spIdx).toNat).toNat + 1) % 256)

/-- Every instruction completes, without a fault, where its register operands are valid and, for PUSH and POP, its stack
bound holds; the run state is then Halted for HLT and unchanged for the rest (rules R14, R78, R108). -/
def Obligations.WellFormedInstructionsComplete : Prop :=
  ∀ (i : Instr) (s : State), i.wellFormed = true →
    (∀ r, i = .push r → s.reg spIdx ≠ 0#8) → (∀ r, i = .pop r → (s.reg spIdx).toNat < 0xF4) →
    ∃ t, exec i s = .next t ∧ t.fault = s.fault ∧ t.runState = (if i = .hlt then .halted else s.runState)

/-! ### Faults -/

/-- A register operand outside 0 .. 7 raises InvalidRegister with that index, operand A before operand B, and before the
instruction writes anything: the state is the old one, but Faulted and with the record. The implicit use of register 7 by
PUSH and POP raises no InvalidRegister (rule R132). -/
def Obligations.InvalidRegisterFaults : Prop :=
  ∀ (r : Byte) (s : State), (8 ≤ r.toNat →
    let faulted : State :=
      { s with runState := .faulted, fault := some ⟨.invalidRegister, s.pc, some (r.toNat : Int)⟩ }
    (∀ v, exec (.ldi r v) s = .next faulted) ∧ exec (.prn r) s = .next faulted ∧
    exec (.push r) s = .next faulted ∧ exec (.pop r) s = .next faulted ∧
    (∀ rb, exec (.mul r rb) s = .next faulted) ∧
    (∀ ra : Byte, ra.toNat < 8 → exec (.mul ra r) s = .next faulted)) ∧
    (r.toNat < 8 → ∀ t, exec (.push r) s = .next t ∨ exec (.pop r) s = .next t →
      t.fault = s.fault ∨ ∃ f, t.fault = some f ∧ f.cause = .outOfBounds)

/-- In a Running engine an instruction raises InvalidRegister exactly when a register operand of it is not in 0 .. 7
(rules R14, R132). -/
def Obligations.InvalidRegisterExactlyWhenIllFormed : Prop :=
  ∀ (i : Instr) (s : State), s.runState = .running →
    ((∃ t f, exec i s = .next t ∧ t.runState = .faulted ∧ t.fault = some f ∧ f.cause = .invalidRegister) ↔
      i.wellFormed = false)

/-- The two stack bounds: PUSH faults with OutOfBounds(-1) exactly when the stack pointer is 0, POP with
OutOfBounds(x[7]) exactly when it is at or above SP_RESET, whatever valid register is named; a fault changes nothing
else, and where the bound holds nothing else is guarded (rule R108). -/
def Obligations.StackBoundsFault : Prop :=
  ∀ (r : Byte) (s : State) (h : r.toNat < 8),
    (s.reg spIdx = 0#8 → exec (.push r) s =
      .next { s with runState := .faulted, fault := some ⟨.outOfBounds, s.pc, some (-1)⟩ }) ∧
    (s.reg spIdx ≠ 0#8 → ∃ t, exec (.push r) s = .next t ∧ t.runState = s.runState ∧ t.fault = s.fault ∧
      (r.toNat ≠ 7 → t.mem.read ((s.reg spIdx).toNat - 1) = s.reg ⟨r.toNat, h⟩)) ∧
    (0xF4 ≤ (s.reg spIdx).toNat → exec (.pop r) s =
      .next { s with runState := .faulted, fault := some ⟨.outOfBounds, s.pc, some ((s.reg spIdx).toNat : Int)⟩ }) ∧
    ((s.reg spIdx).toNat < 0xF4 → ∃ t, exec (.pop r) s = .next t ∧ t.runState = s.runState ∧ t.fault = s.fault)

/-- Faults are precise: a step that ends Faulted leaves memory, registers, output and pc exactly as they were, and
records a cause, the pc of the instruction and an info; the engine then takes no step (rule R136). -/
def Obligations.FaultsArePrecise : Prop :=
  ∀ s t : State, step s = .next t → t.runState = .faulted →
    (∃ cause info, t = { s with runState := .faulted, fault := some ⟨cause, s.pc, info⟩ }) ∧
    step t = .fault .noStepWhenFaulted

/-- No step records cause 4 (rule R134): a fault record that a step writes has code 1, 2 or 3 and an info. -/
def Obligations.StepNeverRaisesUnsupportedAlu : Prop :=
  ∀ s t : State, step s = .next t → t.runState = .faulted →
    ∃ f n, t.fault = some f ∧ f.cause ≠ .unsupportedALUOperation ∧ f.info = some n ∧ f.cause.code ∈ [1#3, 2#3, 3#3]

/-- The fault recorded is that of the first check that fails, in the order of 40_engine.md section 3 (the spec's decision
D3), and no record is written where none fails: opcode address, opcode, operand A address, operand B address, register A,
register B, stack bound. Every opcode at every address, every register index and every stack pointer; pc beyond 256 is
ruled out by the invariant. -/
def Obligations.FirstFailingCheckIsReported : Prop :=
  ∀ s : State, s.runState = .running → s.pc.toNat ≤ 256 →
    let p := s.pc.toNat
    let op := s.mem.read p
    let a := s.mem.read (p + 1)
    let b := s.mem.read (p + 2)
    let sp := (s.reg spIdx).toNat
    ∃ t, step s = .next t ∧ t.fault =
      if p = 256 then some ⟨.outOfBounds, s.pc, some 256⟩
      else if op ∉ [0x82#8, 0x47#8, 0x01#8, 0xA2#8, 0x45#8, 0x46#8] then
        some ⟨.invalidOpcode, s.pc, some (op.toNat : Int)⟩
      else if op ≠ 0x01#8 ∧ p = 255 then some ⟨.outOfBounds, s.pc, some 256⟩
      else if op ∈ [0x82#8, 0xA2#8] ∧ p = 254 then some ⟨.outOfBounds, s.pc, some 256⟩
      else if op ≠ 0x01#8 ∧ 8 ≤ a.toNat then some ⟨.invalidRegister, s.pc, some (a.toNat : Int)⟩
      else if op = 0xA2#8 ∧ 8 ≤ b.toNat then some ⟨.invalidRegister, s.pc, some (b.toNat : Int)⟩
      else if op = 0x45#8 ∧ sp = 0 then some ⟨.outOfBounds, s.pc, some (-1)⟩
      else if op = 0x46#8 ∧ 0xF4 ≤ sp then some ⟨.outOfBounds, s.pc, some (sp : Int)⟩
      else s.fault

/-- The numeric cause codes (10_state.md section 5, 60_exceptions.md section 1; the spec's own numbering, decision D9): the
status shows 0 while there is no record, and 1, 2, 3, 4 for InvalidOpcode, OutOfBounds, InvalidRegister and
UnsupportedALUOperation, whatever else the record holds. -/
def Obligations.FaultCauseCodes : Prop :=
  ∀ s : State, (s.fault = none → s.causeCode = 0#3) ∧ ∀ (p : PcWord) (n : Option Int),
    (s.fault = some ⟨.invalidOpcode, p, n⟩ → s.causeCode = 1#3) ∧
    (s.fault = some ⟨.outOfBounds, p, n⟩ → s.causeCode = 2#3) ∧
    (s.fault = some ⟨.invalidRegister, p, n⟩ → s.causeCode = 3#3) ∧
    (s.fault = some ⟨.unsupportedALUOperation, p, n⟩ → s.causeCode = 4#3)

/-! ### The ALU -/

/-- The ALU contract (42_alu.md section 1): MUL and ADD read both registers, then write the truncated result to the first and
nothing else; any other operation raises UnsupportedALUOperation; an invalid index is reported first, A before B. That the last arm's
info is none, and that every other operation is one constructor, are the model's (assumptions 3 and 6). -/
def Obligations.AluContract : Prop :=
  ∀ (op : AluOp) (a b : Byte) (s : State),
    (8 ≤ a.toNat → alu op a b s = .error ⟨.invalidRegister, some (a.toNat : Int)⟩) ∧
    (a.toNat < 8 → 8 ≤ b.toNat → alu op a b s = .error ⟨.invalidRegister, some (b.toNat : Int)⟩) ∧
    ∀ (ha : a.toNat < 8) (hb : b.toNat < 8),
      match op with
      | .mul => ∃ t, alu .mul a b s = .ok t ∧
          (t.reg ⟨a.toNat, ha⟩).toNat = ((s.reg ⟨a.toNat, ha⟩).toNat * (s.reg ⟨b.toNat, hb⟩).toNat) % 256 ∧
          (∀ j : RegIdx, j.val ≠ a.toNat → t.reg j = s.reg j) ∧ t = { s with regs := t.regs }
      | .add => ∃ t, alu .add a b s = .ok t ∧
          (t.reg ⟨a.toNat, ha⟩).toNat = ((s.reg ⟨a.toNat, ha⟩).toNat + (s.reg ⟨b.toNat, hb⟩).toNat) % 256 ∧
          (∀ j : RegIdx, j.val ≠ a.toNat → t.reg j = s.reg j) ∧ t = { s with regs := t.regs }
      | .other => alu .other a b s = .error ⟨.unsupportedALUOperation, none⟩

/-- The low byte is the same for the signed reading of the operands: after MUL the register holds the signed product
modulo 256 (rule R99). -/
def Obligations.MulIsLowByteOfSignedProduct : Prop :=
  ∀ (ra rb : Byte) (s : State) (ha : ra.toNat < 8) (hb : rb.toNat < 8), ∃ t, exec (.mul ra rb) s = .next t ∧
    t.reg ⟨ra.toNat, ha⟩ = BitVec.ofInt 8 ((s.reg ⟨ra.toNat, ha⟩).toInt * (s.reg ⟨rb.toNat, hb⟩).toInt)

/-! ### The program counter -/

/-- The pc never decreases: a step that leaves the engine Running adds 2 or 3 to it exactly, without wrap, and a step
that ends the run leaves it (rules R17, R18, R128). -/
def Obligations.PcIsMonotonic : Prop :=
  ∀ s t : State, step s = .next t →
    (t.runState = .running ∧ (t.pc.toNat = s.pc.toNat + 2 ∨ t.pc.toNat = s.pc.toNat + 3) ∧ t.pc.toNat ≤ 256) ∨
    (t.ended ∧ t.pc = s.pc)

/-- How a step changes the pc, by the instruction dispatched (rule R17): 3 more for LDI and MUL, 2 more for PRN, PUSH and
POP; HLT leaves it and halts; a step that faults leaves it. The instruction may stand at any address where its bytes lie
inside memory. -/
def Obligations.PcAdvancesByDispatchedLength : Prop :=
  ∀ (s t : State) (n : Nat) (i : Instr) (rest : List Byte), s.pc.toNat + n ≤ 256 →
    decode (s.bytesAt s.pc.toNat n) = .ok (i, rest) → step s = .next t →
    (t.runState = .faulted → t.pc = s.pc) ∧
    (t.runState ≠ .faulted →
      match i with
      | .ldi _ _ => t.pc.toNat = s.pc.toNat + 3
      | .prn _ => t.pc.toNat = s.pc.toNat + 2
      | .hlt => t.pc = s.pc ∧ t.runState = .halted
      | .mul _ _ => t.pc.toNat = s.pc.toNat + 3
      | .push _ => t.pc.toNat = s.pc.toNat + 2
      | .pop _ => t.pc.toNat = s.pc.toNat + 2)

/-- The jump contract of the sequencer: the pc becomes the target and no length is added; the target is not checked when
it is written, and a target of 256 faults at the next fetch. No handler of this hardware asks for a jump (rule R126). -/
def Obligations.JumpContractUnusedByHandlers : Prop :=
  (∀ (len : Nat) (s s' : State) (target : PcWord), sequence len s (.ok (.jump target s')) = { s' with pc := target }) ∧
  (∀ (len : Nat) (s s' : State), s'.runState = .running →
    ∃ t, step (sequence len s (.ok (.jump 256#9 s'))) = .next t ∧ t.fault = some ⟨.outOfBounds, 256#9, some 256⟩) ∧
  ∀ (a b : Byte) (s s' : State) (target : PcWord),
    handlerLdi a b s ≠ .ok (.jump target s') ∧ handlerPrn a s ≠ .ok (.jump target s') ∧
    handlerHlt s ≠ .ok (.jump target s') ∧ handlerMul a b s ≠ .ok (.jump target s') ∧
    handlerPush a s ≠ .ok (.jump target s') ∧ handlerPop a s ≠ .ok (.jump target s')

/-- Every run ends: from every Running state the engine is Halted or Faulted after at most 129 steps, whatever memory
holds, memory that modifies itself included (40_engine.md section 4, a bound the spec marks as derived). That half the
cells left above the pc plus one bound it too is this model's own inference, from the same 2 or 3 added by each step. -/
def Obligations.EveryRunEnds : Prop :=
  ∀ s : State, s.runState = .running →
    ∃ k t, k ≤ 129 ∧ k ≤ (256 - s.pc.toNat) / 2 + 1 ∧ core.run k s = .next t ∧ t.ended

/-! ### Whole-machine rules -/

/-- Only PUSH changes memory, and only the one cell whose address it computes (rules R22, R37). -/
def Obligations.OnlyPushChangesMemory : Prop :=
  ∀ (i : Instr) (s t : State) (a : Nat), exec i s = .next t → t.mem.read a ≠ s.mem.read a →
    ∃ r, i = .push r ∧ pushAddr s = .ok (a : Int)

/-- The registers each instruction writes (rule R13): LDI and MUL their operand A, PUSH the stack pointer, POP its
operand A and the stack pointer, PRN and HLT none. -/
def Obligations.RegisterWritesAreTheTable : Prop :=
  ∀ (i : Instr) (s t : State) (j : RegIdx), exec i s = .next t → t.reg j ≠ s.reg j →
    match i with
    | .ldi r _ => j.val = r.toNat
    | .prn _ => False
    | .hlt => False
    | .mul ra _ => j.val = ra.toNat
    | .push _ => j = spIdx
    | .pop r => j.val = r.toNat ∨ j = spIdx

/-- The output stream is append-only: a step keeps it, or appends the one value of the register a PRN names (rule R23). -/
def Obligations.OutputIsAppendOnly : Prop :=
  ∀ (i : Instr) (s t : State), exec i s = .next t → t.out ≠ s.out →
    ∃ (r : Byte) (h : r.toNat < 8), i = .prn r ∧ t.out = s.out ++ [s.reg ⟨r.toNat, h⟩]

/-- Nothing in the engine reads the output stream: a step of a state with more output before its own does the same, with
that output before its own (rule R23). -/
def Obligations.OutputIsNeverRead : Prop :=
  ∀ (s : State) (earlier : List Byte),
    step { s with out := earlier ++ s.out } =
      match step s with
      | .next t => .next { t with out := earlier ++ t.out }
      | .fault f => .fault f
      | .refused r => .refused r

/-- A store is seen by the next fetch: a PUSH at the pc into the cell the pc then reaches makes the pushed byte the next
opcode. Pushing 0x01 there halts, and pushing a byte that is no opcode faults with InvalidOpcode of that byte (rules R45,
R173). -/
def Obligations.PushedByteIsFetchedNext : Prop :=
  ∀ (s : State) (r : Byte) (h : r.toNat < 7), s.runState = .running → s.pc.toNat ≤ 252 →
    s.mem.read s.pc.toNat = 0x45#8 → s.mem.read (s.pc.toNat + 1) = r → (s.reg spIdx).toNat = s.pc.toNat + 3 →
    ∃ t, step s = .next t ∧ t.mem.read (s.pc.toNat + 2) = s.reg ⟨r.toNat, by omega⟩ ∧
      t.pc.toNat = s.pc.toNat + 2 ∧
      (s.reg ⟨r.toNat, by omega⟩ = 0x01#8 → step t = .next { t with runState := .halted }) ∧
      (dispatch (s.reg ⟨r.toNat, by omega⟩) = none → step t = .next { t with
        runState := .faulted
        fault := some ⟨.invalidOpcode, t.pc, some ((s.reg ⟨r.toNat, by omega⟩).toNat : Int)⟩ })

/-- A fault record is written once: where the engine is Running there is none, and a step writes one exactly when it ends
Faulted (rules R19, R20). Over the states of the invariant: a Running state with a record is reached by no run. -/
def Obligations.FaultRecordWrittenWithFaulted : Prop :=
  ∀ s t : State, s.Inv → step s = .next t → s.fault = none ∧ (t.fault ≠ none ↔ t.runState = .faulted)

/-! ### The stack -/

/-- PUSH then POP of one register other than R7 restores the whole register file; only the cell below the old stack
pointer changes, and holds the register (rule R109). -/
def Obligations.PushThenPopRestoresRegisters : Prop :=
  ∀ (r : Byte) (s : State) (h : r.toNat < 7), s.reg spIdx ≠ 0#8 → (s.reg spIdx).toNat ≤ 0xF4 →
    ∃ t u, exec (.push r) s = .next t ∧ exec (.pop r) t = .next u ∧ (∀ j : RegIdx, u.reg j = s.reg j) ∧
      u.mem.read ((s.reg spIdx).toNat - 1) = s.reg ⟨r.toNat, by omega⟩ ∧
      ∀ a, a ≠ (s.reg spIdx).toNat - 1 → u.mem.read a = s.mem.read a

/-- Two pushes and two pops give the values back last in, first out, also where a register popped is one that was pushed;
the two registers popped differ, and none is R7 (rule R109). -/
def Obligations.PushPushPopPopIsLifo : Prop :=
  ∀ (r1 r2 r3 r4 : Byte) (s : State) (h1 : r1.toNat < 7) (h2 : r2.toNat < 7) (h3 : r3.toNat < 7) (h4 : r4.toNat < 7),
    r3 ≠ r4 → 2 ≤ (s.reg spIdx).toNat → (s.reg spIdx).toNat ≤ 0xF4 →
    ∃ t u v w, exec (.push r1) s = .next t ∧ exec (.push r2) t = .next u ∧ exec (.pop r3) u = .next v ∧
      exec (.pop r4) v = .next w ∧ w.reg ⟨r3.toNat, by omega⟩ = s.reg ⟨r2.toNat, by omega⟩ ∧
      w.reg ⟨r4.toNat, by omega⟩ = s.reg ⟨r1.toNat, by omega⟩ ∧ w.reg spIdx = s.reg spIdx

/-! ### Invariants -/

/-- The invariant holds after reset. -/
def Obligations.InvariantHoldsAtReset : Prop := State.reset.Inv

/-- Every step keeps the invariant: canonical memory, the pc in 0 .. 256, a fault record exactly when Faulted, naming the
pc and an info in range (rules R16, R18, R19, R20, R131), and everything but memory as reset leaves it in an engine not
yet started. -/
def Obligations.StepKeepsInvariant : Prop :=
  ∀ s t : State, s.Inv → step s = .next t → t.Inv

/-- Every step keeps the bound that two bytes of program stand below the pc for each value emitted; with the pc at most
256 a run emits at most 128 values (rules R82, R115). -/
def Obligations.StepKeepsOutputBound : Prop :=
  ∀ s t : State, 2 * s.out.length ≤ s.pc.toNat → s.pc.toNat ≤ 256 → step s = .next t →
    2 * t.out.length ≤ t.pc.toNat ∧ t.out.length ≤ 128

/-! ### Reset, load, the host -/

/-- What reset leaves (10_state.md section 9): memory zero, registers 0 to 6 zero, the stack pointer 0xF4, the pc 0, no
fault, no output, and the engine not yet running, so that it takes no step. The name of that run state and of the stop are
the model's (assumptions 1 and 2). -/
def Obligations.ResetValues : Prop :=
  (∀ a, State.reset.mem.read a = 0#8) ∧ (∀ j : RegIdx, j ≠ spIdx → State.reset.reg j = 0#8) ∧
  State.reset.reg spIdx = 0xF4#8 ∧ State.reset.pc = 0#9 ∧ State.reset.runState = .notStarted ∧
  State.reset.fault = none ∧ State.reset.out = [] ∧ step State.reset = .fault .noStepBeforeStart

/-- Before the host starts it the engine takes no step (10_state.md section 9; 60_exceptions.md section 1, LoadError):
whatever the host moves since reset, a failed load among them, if no start is among them. A session is the model's, and
so is the stop's name (assumptions 1, 2 and 9). -/
def Obligations.NoStepBeforeStart : Prop :=
  ∀ (moves : List HostMove) (x : Session), HostMove.start ∉ moves →
    moves.foldlM (fun x m => hostMove m x) hostReset = some x → step x.state = .fault .noStepBeforeStart

/-- The run state changes as the table of 10_state.md section 5 says: a step leaves Running for Halted, Faulted or Running,
Halted by HLT alone; of the host's moves start alone enters Running, from a state not yet started (the model's name,
assumption 1), and any other change is a reset, which gives the reset state. -/
def Obligations.RunStateChangesAsTabled : Prop :=
  (∀ s t : State, step s = .next t → s.runState = .running ∧ t.runState ≠ .notStarted ∧
    (t.runState = .halted ↔ fetch s = .ok .hlt)) ∧
  ∀ (m : HostMove) (x y : Session), hostMove m x = some y → y.state.runState ≠ x.state.runState →
    (m = .start ∧ x.state.runState = .notStarted ∧ y.state = { x.state with runState := .running }) ∨
      (m = .reset ∧ y.state = State.reset)

/-- Every host move keeps the invariant: the load port writes memory in its canonical form and nothing else, start
changes the run state alone, reset gives the reset state. -/
def Obligations.HostMovesKeepInvariant : Prop :=
  ∀ (m : HostMove) (x y : Session), x.state.Inv → hostMove m x = some y → y.state.Inv

/-- The launch state of an image of at most 256 bytes (70_reset_and_hazards.md section 2): the image from address 0, every
other cell zero, everything else as reset leaves it, and Running. That an empty image faults at its first step is a
sentence the spec marks as derived, and the invariant it meets is the model's own. -/
def Obligations.LaunchStateHoldsImage : Prop :=
  ∀ image : List Byte, image.length ≤ 256 → ∃ s, launch image = some s ∧
    (∀ a, s.mem.read a = image.getD a 0#8) ∧ s.Inv ∧
    (∀ j : RegIdx, j ≠ spIdx → s.reg j = 0#8) ∧ s.reg spIdx = 0xF4#8 ∧ s.pc = 0#9 ∧
    s.runState = .running ∧ s.fault = none ∧ s.out = [] ∧
    (image = [] → ∃ t, step s = .next t ∧ t.fault = some ⟨.invalidOpcode, 0#9, some 0⟩)

/-- An image of more than 256 bytes is a load failure: there is no launch state (rule R168). -/
def Obligations.OverlongImageHasNoLaunch : Prop :=
  ∀ image : List Byte, 256 < image.length → launch image = none

/-- Loading an image through the load port of a reset engine, byte by byte from address 0, and starting it is the launch
of the image, and fails where there is no launch state (rules R165, R167, R168). -/
def Obligations.LoadPortThenStartIsLaunch : Prop :=
  ∀ image : List Byte,
    (image.zipIdx.map (fun c => HostMove.load c.2 c.1) ++ [HostMove.start]).foldlM (fun x m => hostMove m x) hostReset =
      (launch image).map (⟨false, ·⟩)

/-- Once the engine is started, whatever the run state then is, the host has no move but reset; reset gives the one reset
session from any (rules R161, R171, R177). Once a load has failed start has no result either, since such an engine is
never started (rule R168). That a further load has none after a failed one is the model's own choice, and so is the
session (assumption 9). -/
def Obligations.StartedEngineAcceptsOnlyReset : Prop :=
  ∀ (x : Session) (m : HostMove), x.state.runState ≠ .notStarted ∨ x.loadFailed = true →
    hostMove m x = if m = .reset then some hostReset else none

/-- The end status (70_reset_and_hazards.md section 3): the exit code is 0 exactly for Halted, 1 for a recorded
InvalidOpcode, and non-zero for every other fault. A program file not found gives 2, a malformed program line a non-zero
code. The model's own: a run that has not ended has no code, and the host's open parameter, a free value, stands for a
Faulted state without a record or with cause 4 too (assumption 7). -/
def Obligations.ExitCodeOfEndStatus : Prop :=
  ∀ s : State, (exitCode s = some 0 ↔ s.runState = .halted) ∧ (exitCode s = none ↔ ¬ s.ended) ∧
    (∀ p n, s.runState = .faulted → s.fault = some ⟨.invalidOpcode, p, n⟩ → exitCode s = some 1) ∧
    exitCodeFileNotFound = 2 ∧ exitCodeMalformedText ≠ 0

/-- How the output is rendered (rule R116): one line for each value, in order; a line is decimal digits whose value is the
emitted byte, unsigned, at least one and with no leading zero, then a newline. -/
def Obligations.OutputRendersAsDecimalLines : Prop :=
  ∀ out : List Byte, ∃ lines : List (List Char),
    renderOut out = (lines.map (· ++ ['\n'])).flatten ∧ lines.length = out.length ∧
    ∀ (k : Nat) (v : Byte) (l : List Char), out[k]? = some v → lines[k]? = some l →
      l ≠ [] ∧ l.foldl (fun n c => 10 * n + (c.toNat - 48)) 0 = v.toNat ∧ (∀ c ∈ l, 48 ≤ c.toNat ∧ c.toNat ≤ 57) ∧
      (l.head? = some '0' → l = ['0'])

/-- A line of the program text (30_encoding.md section 6): up to 8 binary digits give one byte, with or without a comment;
a shorter literal has the value it would have with zeros on the left; a blank or comment-only line gives none; non-binary
content before any `#` is malformed, wherever it stands. The model's reading (assumption 8): spaces may stand before the
`#`, and every character but the two digits and the space, a tab included, is non-binary content. -/
def Obligations.ProgramTextLineYieldsByte : Prop :=
  ∀ comment : List Char,
    (∀ (ds : List Char) (k : Nat), (∀ d ∈ ds, d = '0' ∨ d = '1') → ds ≠ [] → ds.length ≤ 8 →
      readLine ds = .byte (BitVec.ofNat 8 (binaryValue ds)) ∧
      readLine (ds ++ List.replicate k ' ' ++ '#' :: comment) = readLine ds ∧
      readLine (List.replicate (8 - ds.length) '0' ++ ds) = readLine ds) ∧
    (∀ k : Nat, readLine (List.replicate k ' ') = .skip ∧ readLine (List.replicate k ' ' ++ '#' :: comment) = .skip) ∧
    ∀ (before : List Char) (c : Char), '#' ∉ before → c ≠ '0' → c ≠ '1' → c ≠ ' ' → c ≠ '#' →
      readLine (before ++ c :: comment) = .malformed
end

