-- ==== Sys2Proof/Laws/Decode.lean ====
section
/-! SUPPORT. The laws of operand validity and of the dispatch table. -/

namespace Sys2Proof

@[simp] theorem validReg_iff (b : Byte) : validReg b = true ↔ b.toNat < 8 := decide_eq_true_iff

@[simp] theorem validReg_false_iff (b : Byte) : validReg b = false ↔ 8 ≤ b.toNat := by
  simp [validReg]

/-- No two rows of the dispatch table have the same opcode. -/
theorem dispatchTable_no_overlap : dispatchTable.Pairwise fun r q => r.opcode ≠ q.opcode := by
  simp [dispatchTable]

@[simp] theorem dispatch_ldi : dispatch 0x82#8 = some ⟨0x82#8, "LDI", .f2 .ldi⟩ := rfl
@[simp] theorem dispatch_prn : dispatch 0x47#8 = some ⟨0x47#8, "PRN", .f1 .prn⟩ := rfl
@[simp] theorem dispatch_hlt : dispatch 0x01#8 = some ⟨0x01#8, "HLT", .f0 .hlt⟩ := rfl
@[simp] theorem dispatch_mul : dispatch 0xA2#8 = some ⟨0xA2#8, "MUL", .f2 .mul⟩ := rfl
@[simp] theorem dispatch_push : dispatch 0x45#8 = some ⟨0x45#8, "PUSH", .f1 .push⟩ := rfl
@[simp] theorem dispatch_pop : dispatch 0x46#8 = some ⟨0x46#8, "POP", .f1 .pop⟩ := rfl

/-- All that a lookup of the dispatch table can answer. -/
theorem dispatch_cases (op : Byte) :
    op = 0x82#8 ∨ op = 0x47#8 ∨ op = 0x01#8 ∨ op = 0xA2#8 ∨ op = 0x45#8 ∨ op = 0x46#8 ∨
      (dispatch op = none ∧ op ≠ 0x82#8 ∧ op ≠ 0x47#8 ∧ op ≠ 0x01#8 ∧ op ≠ 0xA2#8 ∧ op ≠ 0x45#8 ∧ op ≠ 0x46#8) := by
  by_cases h1 : op = 0x82#8
  · exact .inl h1
  by_cases h2 : op = 0x47#8
  · exact .inr (.inl h2)
  by_cases h3 : op = 0x01#8
  · exact .inr (.inr (.inl h3))
  by_cases h4 : op = 0xA2#8
  · exact .inr (.inr (.inr (.inl h4)))
  by_cases h5 : op = 0x45#8
  · exact .inr (.inr (.inr (.inr (.inl h5))))
  by_cases h6 : op = 0x46#8
  · exact .inr (.inr (.inr (.inr (.inr (.inl h6)))))
  refine .inr (.inr (.inr (.inr (.inr (.inr ⟨?_, h1, h2, h3, h4, h5, h6⟩)))))
  simp [dispatch, dispatchTable, lookupRow, Ne.symm h1, Ne.symm h2, Ne.symm h3, Ne.symm h4, Ne.symm h5, Ne.symm h6]

@[simp] theorem encode_length (i : Instr) : (encode i).length = i.length := by
  cases i <;> rfl

end Sys2Proof
end

