-- ==== Sys2Proof/Laws/State.lean ====
section
/-! SUPPORT. The small lemmas of the state: each field after each named update, and the register file. -/

namespace Sys2Proof.Machine

/-! ### `State.setReg` -/

@[simp] theorem setReg_mem (s : State) (i : RegIdx) (v : Nat) : (s.setReg i v).mem = s.mem := rfl
@[simp] theorem setReg_pc (s : State) (i : RegIdx) (v : Nat) : (s.setReg i v).pc = s.pc := rfl
@[simp] theorem setReg_runState (s : State) (i : RegIdx) (v : Nat) : (s.setReg i v).runState = s.runState := rfl
@[simp] theorem setReg_fault (s : State) (i : RegIdx) (v : Nat) : (s.setReg i v).fault = s.fault := rfl
@[simp] theorem setReg_out (s : State) (i : RegIdx) (v : Nat) : (s.setReg i v).out = s.out := rfl

/-- Writing a slot changes that slot, to the value modulo 256, and no other. -/
@[simp] theorem reg_setReg (s : State) (i j : RegIdx) (v : Nat) :
    (s.setReg i v).reg j = if i = j then BitVec.ofNat 8 v else s.reg j := by
  simp [State.setReg, State.reg, Vector.getElem_set, Fin.ext_iff]

/-! ### `State.emit` -/

@[simp] theorem emit_mem (s : State) (v : Byte) : (s.emit v).mem = s.mem := rfl
@[simp] theorem emit_regs (s : State) (v : Byte) : (s.emit v).regs = s.regs := rfl
@[simp] theorem emit_reg (s : State) (v : Byte) (i : RegIdx) : (s.emit v).reg i = s.reg i := rfl
@[simp] theorem emit_pc (s : State) (v : Byte) : (s.emit v).pc = s.pc := rfl
@[simp] theorem emit_runState (s : State) (v : Byte) : (s.emit v).runState = s.runState := rfl
@[simp] theorem emit_fault (s : State) (v : Byte) : (s.emit v).fault = s.fault := rfl
@[simp] theorem emit_out (s : State) (v : Byte) : (s.emit v).out = s.out ++ [v] := rfl

/-! ### `State.takeFault` -/

@[simp] theorem takeFault_mem (s : State) (e : Raised) : (s.takeFault e).mem = s.mem := rfl
@[simp] theorem takeFault_regs (s : State) (e : Raised) : (s.takeFault e).regs = s.regs := rfl
@[simp] theorem takeFault_reg (s : State) (e : Raised) (i : RegIdx) : (s.takeFault e).reg i = s.reg i := rfl
@[simp] theorem takeFault_pc (s : State) (e : Raised) : (s.takeFault e).pc = s.pc := rfl
@[simp] theorem takeFault_runState (s : State) (e : Raised) : (s.takeFault e).runState = .faulted := rfl
@[simp] theorem takeFault_fault (s : State) (e : Raised) :
    (s.takeFault e).fault = some ⟨e.cause, s.pc, e.info⟩ := rfl
@[simp] theorem takeFault_out (s : State) (e : Raised) : (s.takeFault e).out = s.out := rfl

/-! ### `State.setPc` -/

@[simp] theorem setPc_mem (s : State) (x : PcWord) : (s.setPc x).mem = s.mem := rfl
@[simp] theorem setPc_regs (s : State) (x : PcWord) : (s.setPc x).regs = s.regs := rfl
@[simp] theorem setPc_pc (s : State) (x : PcWord) : (s.setPc x).pc = x := rfl
@[simp] theorem setPc_runState (s : State) (x : PcWord) : (s.setPc x).runState = s.runState := rfl
@[simp] theorem setPc_fault (s : State) (x : PcWord) : (s.setPc x).fault = s.fault := rfl
@[simp] theorem setPc_out (s : State) (x : PcWord) : (s.setPc x).out = s.out := rfl
@[simp] theorem setPc_reg (s : State) (x : PcWord) (i : RegIdx) : (s.setPc x).reg i = s.reg i := rfl

/-! ### `State.setMem` -/

@[simp] theorem setMem_mem (s : State) (x : Memory) : (s.setMem x).mem = x := rfl
@[simp] theorem setMem_regs (s : State) (x : Memory) : (s.setMem x).regs = s.regs := rfl
@[simp] theorem setMem_pc (s : State) (x : Memory) : (s.setMem x).pc = s.pc := rfl
@[simp] theorem setMem_runState (s : State) (x : Memory) : (s.setMem x).runState = s.runState := rfl
@[simp] theorem setMem_fault (s : State) (x : Memory) : (s.setMem x).fault = s.fault := rfl
@[simp] theorem setMem_out (s : State) (x : Memory) : (s.setMem x).out = s.out := rfl
@[simp] theorem setMem_reg (s : State) (x : Memory) (i : RegIdx) : (s.setMem x).reg i = s.reg i := rfl

/-! ### `State.setRunState` -/

@[simp] theorem setRunState_mem (s : State) (x : RunState) : (s.setRunState x).mem = s.mem := rfl
@[simp] theorem setRunState_regs (s : State) (x : RunState) : (s.setRunState x).regs = s.regs := rfl
@[simp] theorem setRunState_pc (s : State) (x : RunState) : (s.setRunState x).pc = s.pc := rfl
@[simp] theorem setRunState_runState (s : State) (x : RunState) : (s.setRunState x).runState = x := rfl
@[simp] theorem setRunState_fault (s : State) (x : RunState) : (s.setRunState x).fault = s.fault := rfl
@[simp] theorem setRunState_out (s : State) (x : RunState) : (s.setRunState x).out = s.out := rfl
@[simp] theorem setRunState_reg (s : State) (x : RunState) (i : RegIdx) : (s.setRunState x).reg i = s.reg i := rfl

/-! ### The sequencer -/

@[simp] theorem sequence_next (len : Nat) (s s' : State) :
    sequence len s (.ok (.next s')) = s'.setPc (s.pc + BitVec.ofNat 9 len) := rfl
@[simp] theorem sequence_jump (len : Nat) (s s' : State) (t : PcWord) :
    sequence len s (.ok (.jump t s')) = s'.setPc t := rfl
@[simp] theorem sequence_halt (len : Nat) (s s' : State) :
    sequence len s (.ok (.halt s')) = s'.setRunState .halted := rfl
@[simp] theorem sequence_error (len : Nat) (s : State) (e : Raised) : sequence len s (.error e) = s.takeFault e := rfl

/-! ### Sequencing in `Except Raised` -/

@[simp] theorem bind_ok {α β : Type} (a : α) (f : α → Except Raised β) : (Except.ok a >>= f) = f a := rfl
@[simp] theorem bind_error {α β : Type} (e : Raised) (f : α → Except Raised β) :
    ((Except.error e : Except Raised α) >>= f) = .error e := rfl
@[simp] theorem pure_eq_ok {α : Type} (a : α) : (pure a : Except Raised α) = .ok a := rfl
@[simp] theorem throw_eq_error {α : Type} (e : Raised) : (throw e : Except Raised α) = .error e := rfl

end Sys2Proof.Machine
end

