-- ==== Sys2Proof/Laws/Memory.lean ====
section
/-! SUPPORT. The laws of memory: a read after a write, and the canonical form. -/

namespace Sys2Proof.Machine

/-! ### Reading back -/

@[simp] theorem read_nil (a : Nat) : Memory.read [] a = 0#8 := rfl

theorem read_insert (a b : Nat) (v : Byte) (m : Memory) (h : ∀ c ∈ m, c.1 ≠ a) :
    Memory.read (Memory.insert a v m) b = if a = b then v else Memory.read m b := by
  induction m with
  | nil => simp [Memory.insert, Memory.read]
  | cons c rest ih =>
    have hc : c.1 ≠ a := h c (by simp)
    have ih := ih fun d hd => h d (by simp [hd])
    by_cases hab : a < c.1
    · simp [Memory.insert, hab, Memory.read]
    · rw [Memory.insert, if_neg hab, Memory.read, ih, Memory.read]
      split <;> rename_i hcb
      · rw [if_neg (fun h => hc (hcb.trans h.symm))]
      · rfl

theorem read_erase (a b : Nat) (m : Memory) :
    Memory.read (m.erase a) b = if a = b then 0#8 else Memory.read m b := by
  induction m with
  | nil => simp [Memory.erase]
  | cons c rest ih =>
    simp only [Memory.erase] at ih
    by_cases hc : c.1 = a
    · by_cases hab : a = b <;> simp_all [Memory.erase, Memory.read]
    · by_cases hab : a = b <;> simp_all [Memory.erase, Memory.read]

theorem erase_ne (a : Nat) (m : Memory) : ∀ c ∈ m.erase a, c.1 ≠ a := by
  simp [Memory.erase]

/-- A read after a write gives the value written at that cell, and what it gave before at every other. -/
theorem read_write (m : Memory) (a b : Nat) (v : Byte) :
    Memory.read (m.write a v) b = if a = b then v else Memory.read m b := by
  unfold Memory.write
  split <;> rename_i hv
  · rw [read_erase, hv]
  · rw [read_insert _ _ _ _ (erase_ne a m), read_erase]
    split <;> simp

@[simp] theorem read_write_same (m : Memory) (a : Nat) (v : Byte) : Memory.read (m.write a v) a = v := by
  simp [read_write]

theorem read_write_ne (m : Memory) {a b : Nat} (v : Byte) (h : a ≠ b) :
    Memory.read (m.write a v) b = Memory.read m b := by
  simp [read_write, h]

/-! ### The canonical form -/

@[simp] theorem wf_nil : Memory.wf [] := by simp [Memory.wf]

theorem wf_erase {m : Memory} (h : m.wf) (a : Nat) : (m.erase a).wf :=
  ⟨h.1.filter _, fun c hc => h.2 c (List.mem_of_mem_filter hc)⟩

theorem mem_insert {a : Nat} {v : Byte} {m : Memory} {c : Host.Cell} :
    c ∈ Memory.insert a v m ↔ c = (a, v) ∨ c ∈ m := by
  induction m with
  | nil => simp [Memory.insert]
  | cons d rest ih =>
    rw [Memory.insert]
    split
    · simp
    · simp [ih, or_left_comm]

theorem wf_insert {m : Memory} (h : m.wf) {a : Nat} {v : Byte} (ha : a < Config.memSize) (hv : v ≠ 0#8)
    (hne : ∀ c ∈ m, c.1 ≠ a) : (Memory.insert a v m).wf := by
  refine ⟨?_, fun c hc => ?_⟩
  · obtain ⟨hp, -⟩ := h
    induction m with
    | nil => simp [Memory.insert]
    | cons d rest ih =>
      have hd : d.1 ≠ a := hne d (by simp)
      obtain ⟨hd1, hrest⟩ := List.pairwise_cons.mp hp
      rw [Memory.insert]
      split <;> rename_i had
      · refine List.pairwise_cons.mpr ⟨fun c hc => ?_, hp⟩
        rcases List.mem_cons.mp hc with rfl | hc
        · exact had
        · exact had.trans (hd1 c hc)
      · refine List.pairwise_cons.mpr ⟨fun c hc => ?_, ih (fun c hc => hne c (by simp [hc])) hrest⟩
        rcases mem_insert.mp hc with rfl | hc
        · exact lt_of_le_of_ne (not_lt.mp had) hd
        · exact hd1 c hc
  · rcases mem_insert.mp hc with rfl | hc
    · exact ⟨ha, hv⟩
    · exact h.2 c hc

/-- A write inside the address space keeps the canonical form. -/
theorem wf_write {m : Memory} (h : m.wf) {a : Nat} (v : Byte) (ha : a < Config.memSize) : (m.write a v).wf := by
  unfold Memory.write
  split <;> rename_i hv
  · exact wf_erase h a
  · exact wf_insert (wf_erase h a) ha hv (erase_ne a m)

/-- An address below every listed one reads as 0. -/
theorem read_eq_zero {m : Memory} {a : Nat} (h : ∀ c ∈ m, a ≠ c.1) : Memory.read m a = 0#8 := by
  induction m with
  | nil => rfl
  | cons c rest ih =>
    rw [Memory.read, if_neg (h c (by simp)).symm]
    exact ih fun d hd => h d (by simp [hd])

/-- Two canonical memories that read alike are equal: the form is canonical. -/
theorem wf_ext {m n : Memory} (hm : m.wf) (hn : n.wf) (h : ∀ a, Memory.read m a = Memory.read n a) : m = n := by
  induction m generalizing n with
  | nil =>
    cases n with
    | nil => rfl
    | cons d rest =>
      have := h d.1
      simp only [Memory.read, if_true] at this
      exact absurd this.symm (hn.2 d (by simp)).2
  | cons c rest ih =>
    obtain ⟨hc, hrest⟩ := List.pairwise_cons.mp hm.1
    cases n with
    | nil =>
      have := h c.1
      simp only [Memory.read, if_true] at this
      exact absurd this (hm.2 c (by simp)).2
    | cons d rest' =>
      obtain ⟨hd, hrest'⟩ := List.pairwise_cons.mp hn.1
      have hcd : c.1 = d.1 := by
        rcases lt_trichotomy c.1 d.1 with hlt | heq | hgt
        · have h1 := h c.1
          rw [Memory.read, if_pos rfl, read_eq_zero (m := d :: rest')] at h1
          · exact absurd h1 (hm.2 c (by simp)).2
          · intro e he
            rcases List.mem_cons.mp he with rfl | he
            · exact hlt.ne
            · exact (hlt.trans (hd e he)).ne
        · exact heq
        · have h1 := h d.1
          rw [show Memory.read (d :: rest') d.1 = d.2 by simp [Memory.read], read_eq_zero (m := c :: rest)] at h1
          · exact absurd h1.symm (hn.2 d (by simp)).2
          · intro e he
            rcases List.mem_cons.mp he with rfl | he
            · exact hgt.ne
            · exact (hgt.trans (hc e he)).ne
      have hv : c.2 = d.2 := by
        have h1 := h c.1
        rw [Memory.read, if_pos rfl, hcd] at h1
        simpa [Memory.read] using h1
      have hr : rest = rest' := by
        refine ih ⟨hrest, fun e he => hm.2 e (by simp [he])⟩ ⟨hrest', fun e he => hn.2 e (by simp [he])⟩ fun a => ?_
        by_cases ha : c.1 = a
        · rw [read_eq_zero fun e he => by rw [← ha]; exact (hc e he).ne,
            read_eq_zero fun e he => by rw [← ha, hcd]; exact (hd e he).ne]
        · have h1 := h a
          rwa [Memory.read, if_neg ha, Memory.read, if_neg (hcd ▸ ha)] at h1
      rw [hr, Prod.ext hcd hv]

/-! ### The bounds-checked accesses -/

/-- All that MemRead can do. -/
theorem memRead_eq (addr : Int) (s : State) :
    memRead addr s = if 0 ≤ addr ∧ addr < 256 then .ok (s.mem.read addr.toNat) else .error ⟨.outOfBounds, some addr⟩ := by
  unfold memRead
  by_cases h : 0 ≤ addr ∧ addr < 256
  · rw [if_pos h, if_neg (by simp; omega)]
  · rw [if_neg h, if_pos (by simp; omega)]

theorem memRead_ok {a : Nat} (h : a < 256) (s : State) : memRead (a : Int) s = .ok (s.mem.read a) := by
  rw [memRead_eq, if_pos (by omega)]; simp

theorem memRead_error {addr : Int} (h : addr < 0 ∨ 256 ≤ addr) (s : State) :
    memRead addr s = .error ⟨.outOfBounds, some addr⟩ := by
  rw [memRead_eq, if_neg (by omega)]

theorem memWrite_ok {a : Nat} (h : a < 256) (v : Nat) (s : State) :
    memWrite (a : Int) v s = .ok (s.setMem (s.mem.write a (BitVec.ofNat 8 v))) := by
  unfold memWrite
  rw [if_neg (by simp; omega)]; simp

theorem memWrite_error {addr : Int} (h : addr < 0 ∨ 256 ≤ addr) (v : Nat) (s : State) :
    memWrite addr v s = .error ⟨.outOfBounds, some addr⟩ := by
  unfold memWrite
  rw [if_pos (by simp; omega)]

end Sys2Proof.Machine
end

