-- ==== Sys2Proof/Laws/Exec.lean ====
section
/-! SUPPORT. One lemma per operand form and per shared operation: everything it can do; and what each handler does when
its checks hold. -/

namespace Sys2Proof.Machine

/-! ### Operand forms -/

theorem regOperand_ok {b : Byte} (h : b.toNat < 8) : regOperand b = .ok ⟨b.toNat, h⟩ := by
  simp [regOperand, h]

theorem regOperand_error {b : Byte} (h : 8 ≤ b.toNat) :
    regOperand b = .error ⟨.invalidRegister, some (b.toNat : Int)⟩ := by
  simp [regOperand, Nat.not_lt.mpr h]

/-- A register operand is answered exactly for a valid byte, with the slot of that number. -/
theorem regOperand_cases (b : Byte) :
    (∃ h : b.toNat < 8, regOperand b = .ok ⟨b.toNat, h⟩) ∨
      (8 ≤ b.toNat ∧ regOperand b = .error ⟨.invalidRegister, some (b.toNat : Int)⟩) := by
  by_cases h : b.toNat < 8
  · exact .inl ⟨h, regOperand_ok h⟩
  · exact .inr ⟨by omega, regOperand_error (by omega)⟩

/-- The address PUSH stores to, where there is one: a cell below 255. -/
theorem pushAddr_ok {s : State} (h : s.reg spIdx ≠ 0#8) :
    pushAddr s = .ok (((s.reg spIdx).toNat - 1 : Nat) : Int) := by
  have h0 : (s.reg spIdx).toNat ≠ 0 := fun h' => h (BitVec.eq_of_toNat_eq (by simpa using h'))
  simp only [pushAddr]
  rw [if_neg (by omega)]
  congr 1
  omega

theorem pushAddr_error {s : State} (h : s.reg spIdx = 0#8) : pushAddr s = .error ⟨.outOfBounds, some (-1)⟩ := by
  simp [pushAddr, h]

/-- The address POP loads from, where the stack is not empty. -/
theorem popAddr_ok {s : State} (h : (s.reg spIdx).toNat < 0xF4) : popAddr s = .ok ((s.reg spIdx).toNat : Int) := by
  simp [popAddr, h]

theorem popAddr_error {s : State} (h : 0xF4 ≤ (s.reg spIdx).toNat) :
    popAddr s = .error ⟨.outOfBounds, some ((s.reg spIdx).toNat : Int)⟩ := by
  simp [popAddr, h]

/-! ### Handlers whose checks hold -/

theorem handlerLdi_ok {a : Byte} (h : a.toNat < 8) (b : Byte) (s : State) :
    handlerLdi a b s = .ok (.next (s.setReg ⟨a.toNat, h⟩ b.toNat)) := by
  simp [handlerLdi, regOperand_ok h, immOperand]

theorem alu_ok {a b : Byte} (ha : a.toNat < 8) (hb : b.toNat < 8) (op : AluOp) (s : State) :
    alu op a b s = match op.result (s.reg ⟨a.toNat, ha⟩) (s.reg ⟨b.toNat, hb⟩) with
      | some n => .ok (s.setReg ⟨a.toNat, ha⟩ n)
      | none => .error ⟨.unsupportedALUOperation, none⟩ := by
  cases hr : op.result (s.reg ⟨a.toNat, ha⟩) (s.reg ⟨b.toNat, hb⟩) <;>
    simp [alu, regOperand_ok ha, regOperand_ok hb, hr]

theorem handlerMul_ok {a b : Byte} (ha : a.toNat < 8) (hb : b.toNat < 8) (s : State) :
    handlerMul a b s =
      .ok (.next (s.setReg ⟨a.toNat, ha⟩ ((s.reg ⟨a.toNat, ha⟩).toNat * (s.reg ⟨b.toNat, hb⟩).toNat))) := by
  simp [handlerMul, alu_ok ha hb, AluOp.result]

theorem handlerPrn_ok {a : Byte} (h : a.toNat < 8) (s : State) :
    handlerPrn a s = .ok (.next (s.emit (s.reg ⟨a.toNat, h⟩))) := by
  simp [handlerPrn, regOperand_ok h]

/-- The state a PUSH of slot `r` leaves, before the sequencer writes the pc. -/
theorem handlerPush_ok {a : Byte} (h : a.toNat < 8) {s : State} (hsp : s.reg spIdx ≠ 0#8) :
    handlerPush a s = .ok (.next ((s.setReg spIdx ((s.reg spIdx).toNat - 1)).setMem
      (s.mem.write ((s.reg spIdx).toNat - 1)
        ((s.setReg spIdx ((s.reg spIdx).toNat - 1)).reg ⟨a.toNat, h⟩)))) := by
  have hb : (s.reg spIdx).toNat - 1 < 256 := by have := (s.reg spIdx).isLt; omega
  simp only [handlerPush, regOperand_ok h, pushAddr_ok hsp, bind_ok, Int.toNat_natCast, memWrite_ok hb, pure_eq_ok,
    BitVec.ofNat_toNat, BitVec.setWidth_eq, setReg_mem]

/-- The state a POP into slot `r` leaves, before the sequencer writes the pc. -/
theorem handlerPop_ok {a : Byte} (h : a.toNat < 8) {s : State} (hsp : (s.reg spIdx).toNat < 0xF4) :
    handlerPop a s = .ok (.next ((s.setReg ⟨a.toNat, h⟩ (s.mem.read (s.reg spIdx).toNat).toNat).setReg spIdx
      (((s.setReg ⟨a.toNat, h⟩ (s.mem.read (s.reg spIdx).toNat).toNat).reg spIdx).toNat + 1))) := by
  simp only [handlerPop, regOperand_ok h, popAddr_ok hsp, bind_ok, memRead_ok (show (s.reg spIdx).toNat < 256 by omega),
    pure_eq_ok]

/-! ### Handlers whose register check fails -/

theorem handlerLdi_error {a : Byte} (h : 8 ≤ a.toNat) (b : Byte) (s : State) :
    handlerLdi a b s = .error ⟨.invalidRegister, some (a.toNat : Int)⟩ := by
  simp [handlerLdi, regOperand_error h]

theorem handlerPrn_error {a : Byte} (h : 8 ≤ a.toNat) (s : State) :
    handlerPrn a s = .error ⟨.invalidRegister, some (a.toNat : Int)⟩ := by
  simp [handlerPrn, regOperand_error h]

theorem handlerMul_error_a {a : Byte} (h : 8 ≤ a.toNat) (b : Byte) (s : State) :
    handlerMul a b s = .error ⟨.invalidRegister, some (a.toNat : Int)⟩ := by
  simp [handlerMul, alu, regOperand_error h]

theorem handlerMul_error_b {a b : Byte} (ha : a.toNat < 8) (hb : 8 ≤ b.toNat) (s : State) :
    handlerMul a b s = .error ⟨.invalidRegister, some (b.toNat : Int)⟩ := by
  simp [handlerMul, alu, regOperand_ok ha, regOperand_error hb]

theorem handlerPush_error {a : Byte} (h : 8 ≤ a.toNat) (s : State) :
    handlerPush a s = .error ⟨.invalidRegister, some (a.toNat : Int)⟩ := by
  simp [handlerPush, regOperand_error h]

theorem handlerPop_error {a : Byte} (h : 8 ≤ a.toNat) (s : State) :
    handlerPop a s = .error ⟨.invalidRegister, some (a.toNat : Int)⟩ := by
  simp [handlerPop, regOperand_error h]

/-! ### Handlers whose stack bound fails -/

theorem handlerPush_empty {a : Byte} (h : a.toNat < 8) {s : State} (hsp : s.reg spIdx = 0#8) :
    handlerPush a s = .error ⟨.outOfBounds, some (-1)⟩ := by
  simp [handlerPush, regOperand_ok h, pushAddr_error hsp]

theorem handlerPop_empty {a : Byte} (h : a.toNat < 8) {s : State} (hsp : 0xF4 ≤ (s.reg spIdx).toNat) :
    handlerPop a s = .error ⟨.outOfBounds, some ((s.reg spIdx).toNat : Int)⟩ := by
  simp [handlerPop, regOperand_ok h, popAddr_error hsp]

/-! ### The meanings as the sequencer over a handler -/

theorem exec_ldi (a b : Byte) (s : State) : exec (.ldi a b) s = .next (sequence 3 s (handlerLdi a b s)) := rfl
theorem exec_prn (a : Byte) (s : State) : exec (.prn a) s = .next (sequence 2 s (handlerPrn a s)) := rfl
theorem exec_hlt (s : State) : exec .hlt s = .next (s.setRunState .halted) := rfl
theorem exec_mul (a b : Byte) (s : State) : exec (.mul a b) s = .next (sequence 3 s (handlerMul a b s)) := rfl
theorem exec_push (a : Byte) (s : State) : exec (.push a) s = .next (sequence 2 s (handlerPush a s)) := rfl
theorem exec_pop (a : Byte) (s : State) : exec (.pop a) s = .next (sequence 2 s (handlerPop a s)) := rfl

/-- Every meaning answers a next state: no instruction stops. -/
theorem exec_total (i : Instr) (s : State) : ∃ t, exec i s = .next t := by
  cases i <;> exact ⟨_, rfl⟩

end Sys2Proof.Machine
end

