-- ==== Sys2Proof/Laws/HostPort.lean ====
section
/-! SUPPORT. The laws of placing bytes and of the load port: what is read back, and the canonical form. -/

namespace Sys2Proof.Machine

/-- Bytes placed inside memory are read back at their addresses; every other cell keeps its content. -/
theorem read_placeBytes (bs : List Byte) (a : Nat) (m : Memory) (h : a + bs.length ≤ 256) (b : Nat) :
    (placeBytes bs a m).read b = if a ≤ b then (bs[b - a]?).getD (m.read b) else m.read b := by
  induction bs generalizing a m with
  | nil => simp [placeBytes]
  | cons x xs ih =>
    simp only [List.length_cons] at h
    rw [placeBytes, if_pos (show a < Config.memSize by simp; omega), ih _ _ (by omega)]
    by_cases h1 : a + 1 ≤ b
    · rw [if_pos h1, if_pos (by omega), read_write_ne _ _ (by omega), show b - a = (b - (a + 1)) + 1 by omega]
      simp
    · rw [if_neg h1]
      by_cases h2 : a = b
      · subst h2; simp
      · rw [read_write_ne _ _ h2, if_neg (by omega)]

/-- Placing bytes keeps the canonical form. -/
theorem wf_placeBytes (bs : List Byte) (a : Nat) {m : Memory} (h : m.wf) : (placeBytes bs a m).wf := by
  induction bs generalizing a m with
  | nil => exact h
  | cons b bs ih =>
    rw [placeBytes]
    apply ih
    split
    · exact wf_write h _ (by assumption)
    · exact h

/-- MemWrite keeps the canonical form. -/
theorem wf_memWrite {addr : Int} {v : Nat} {s t : State} (hs : s.mem.wf) (h : memWrite addr v s = .ok t) : t.mem.wf := by
  unfold memWrite at h
  split at h
  · cases h
  · cases h
    rename_i hb
    simp only [Config.memSize, not_or, not_lt, not_le] at hb
    exact wf_write hs _ (by simp; omega)

/-- The memory of the reset state is canonical. -/
theorem wf_reset : State.reset.mem.wf := wf_nil

/-- Placing an instruction word keeps the canonical form. -/
theorem wf_withFetchWord {s : State} (h : s.mem.wf) (nbits w : Nat) : (s.withFetchWord nbits w).mem.wf :=
  wf_placeBytes _ _ h

/-- One byte through the load port. -/
theorem memWrite_byte (a : Nat) (b : Byte) (s : State) :
    memWrite (a : Int) b.toNat s =
      if a < 256 then .ok (s.setMem (s.mem.write a b)) else .error ⟨.outOfBounds, some (a : Int)⟩ := by
  split
  · rw [memWrite_ok (by assumption)]; simp
  · rw [memWrite_error (by omega)]

/-- Everything a host move can do. -/
theorem hostMove_cases {m : HostMove} {x y : Session} (h : hostMove m x = some y) :
    (m = .reset ∧ y = hostReset) ∨
      (x.loadable ∧ m = .start ∧ y = ⟨false, x.state.setRunState .running⟩) ∨
      (x.loadable ∧ ∃ a b, m = .load a b ∧ ((a < 256 ∧ y = ⟨false, x.state.setMem (x.state.mem.write a b)⟩) ∨
        (256 ≤ a ∧ y = ⟨true, x.state⟩))) := by
  cases m with
  | reset => simp only [hostMove, Option.some.injEq] at h; exact .inl ⟨rfl, h.symm⟩
  | start =>
    simp only [hostMove, Option.ite_none_right_eq_some, Option.some.injEq] at h
    exact .inr (.inl ⟨h.1, rfl, h.2.symm⟩)
  | load a b =>
    simp only [hostMove, Option.ite_none_right_eq_some, memWrite_byte] at h
    refine .inr (.inr ⟨h.1, a, b, rfl, ?_⟩)
    by_cases ha : a < 256 <;> simp only [ha, if_true, if_false, Option.some.injEq] at h
    · exact .inl ⟨ha, h.2.symm⟩
    · exact .inr ⟨by omega, h.2.symm⟩

/-- An image that fits is placed byte by byte. -/
theorem loadImage_ok (bs : List Byte) (a : Nat) (s : State) (h : a + bs.length ≤ 256) :
    loadImage bs a s = .ok (s.setMem (placeBytes bs a s.mem)) := by
  induction bs generalizing a s with
  | nil => rfl
  | cons b bs ih =>
    simp only [List.length_cons] at h
    rw [loadImage, memWrite_byte, if_pos (by omega), bind_ok, ih _ _ (by omega), placeBytes,
      if_pos (show a < Config.memSize by simp; omega)]
    rfl

end Sys2Proof.Machine
end

