-- ==== Sys2Proof/Laws/PerInstr.lean ====
section
/-! SUPPORT. Statements about every instruction as syntax, made constructor by constructor. -/

namespace Sys2Proof.Laws

/-- The encoding of an instruction has the shape the dispatch table gives its opcode byte: the row of that byte carries
the instruction's mnemonic and length, and the encoding has that many bytes, 1 to 3 (spec/30_encoding.md rules R50 to
R54). -/
def EncodingShape.Statement (i : Instr) : Prop :=
  (encode i).length = i.length ∧ 1 ≤ i.length ∧ i.length ≤ Config.maxIlen ∧
    ∃ row, dispatch i.opcode = some row ∧ row.opcode = i.opcode ∧ row.mnemonic = i.mnemonic ∧ row.entry.len = i.length

theorem EncodingShape.ldi (r v : Byte) : EncodingShape.Statement (.ldi r v) :=
  ⟨rfl, by simp [Instr.length], by simp [Instr.length], _, rfl, rfl, rfl, rfl⟩

theorem EncodingShape.prn (r : Byte) : EncodingShape.Statement (.prn r) :=
  ⟨rfl, by simp [Instr.length], by simp [Instr.length], _, rfl, rfl, rfl, rfl⟩

theorem EncodingShape.hlt : EncodingShape.Statement .hlt :=
  ⟨rfl, by simp [Instr.length], by simp [Instr.length], _, rfl, rfl, rfl, rfl⟩

theorem EncodingShape.mul (ra rb : Byte) : EncodingShape.Statement (.mul ra rb) :=
  ⟨rfl, by simp [Instr.length], by simp [Instr.length], _, rfl, rfl, rfl, rfl⟩

theorem EncodingShape.push (r : Byte) : EncodingShape.Statement (.push r) :=
  ⟨rfl, by simp [Instr.length], by simp [Instr.length], _, rfl, rfl, rfl, rfl⟩

theorem EncodingShape.pop (r : Byte) : EncodingShape.Statement (.pop r) :=
  ⟨rfl, by simp [Instr.length], by simp [Instr.length], _, rfl, rfl, rfl, rfl⟩

end Sys2Proof.Laws
end

