-- ==== Sys2Proof/Laws/Step.lean ====
section
/-! SUPPORT. What the fetch can answer and what a step can do. -/

namespace Sys2Proof.Machine

/-! ### Reading a stretch of memory -/

@[simp] theorem bytesAt_zero (s : State) (a : Nat) : s.bytesAt a 0 = [] := rfl

theorem bytesAt_succ (s : State) (a n : Nat) : s.bytesAt a (n + 1) = s.mem.read a :: s.bytesAt (a + 1) n := by
  simp only [State.bytesAt, List.range_succ_eq_map, List.map_cons, List.map_map, Nat.add_zero]
  congr 1
  apply List.map_congr_left
  intro k _
  simp only [Function.comp]
  congr 1
  omega

/-! ### The fetch -/

/-- The fetch beyond the last cell. -/
theorem fetch_beyond {s : State} (h : 256 ≤ s.pc.toNat) :
    fetch s = .error ⟨.outOfBounds, some (s.pc.toNat : Int)⟩ := by
  simp [fetch, memRead_error (addr := (s.pc.toNat : Int)) (by omega)]

/-- The fetch inside memory: the lookup, then as many operand bytes as the entry has. -/
theorem fetch_inside {s : State} (h : s.pc.toNat < 256) :
    fetch s = match (dispatch (s.mem.read s.pc.toNat)).map Row.entry with
      | none => .error ⟨.invalidOpcode, some ((s.mem.read s.pc.toNat).toNat : Int)⟩
      | some (.f0 i) => .ok i
      | some (.f1 make) =>
        if s.pc.toNat = 255 then .error ⟨.outOfBounds, some 256⟩ else .ok (make (s.mem.read (s.pc.toNat + 1)))
      | some (.f2 make) =>
        if 254 ≤ s.pc.toNat then .error ⟨.outOfBounds, some 256⟩
        else .ok (make (s.mem.read (s.pc.toNat + 1)) (s.mem.read (s.pc.toNat + 2))) := by
  simp only [fetch, memRead_ok h, bind_ok]
  cases hd : (dispatch (s.mem.read s.pc.toNat)).map Row.entry with
  | none => rfl
  | some e =>
    cases e with
    | f0 i => rfl
    | f1 make =>
      by_cases h1 : s.pc.toNat = 255
      · simp [h1, memRead_error]
      · simp only [if_neg h1]
        rw [show ((s.pc.toNat : Int) + 1) = ((s.pc.toNat + 1 : Nat) : Int) by omega, memRead_ok (by omega)]; rfl
    | f2 make =>
      by_cases h1 : s.pc.toNat = 255
      · simp [h1, memRead_error]
      · rw [show ((s.pc.toNat : Int) + 1) = ((s.pc.toNat + 1 : Nat) : Int) by omega, memRead_ok (by omega)]
        by_cases h2 : s.pc.toNat = 254
        · simp [h2, memRead_error]
        · rw [show ((s.pc.toNat : Int) + 2) = ((s.pc.toNat + 2 : Nat) : Int) by omega, memRead_ok (by omega)]
          simp [show ¬ 254 ≤ s.pc.toNat by omega]

/-- If the fetch answers an instruction, all its bytes are inside memory and are its encoding. -/
theorem fetch_ok {s : State} {i : Instr} (h : fetch s = .ok i) :
    s.pc.toNat + i.length ≤ 256 ∧ s.bytesAt s.pc.toNat i.length = encode i := by
  by_cases hp : s.pc.toNat < 256
  · rw [fetch_inside hp] at h
    rcases dispatch_cases (s.mem.read s.pc.toNat) with ho | ho | ho | ho | ho | ho | ⟨ho, -⟩ <;>
      simp only [ho, dispatch_ldi, dispatch_prn, dispatch_hlt, dispatch_mul, dispatch_push, dispatch_pop,
        Option.map_some, Option.map_none] at h <;>
      (try split at h) <;> cases h <;>
      simp_all [Instr.length, bytesAt_succ, encode, Instr.opcode, Instr.operands] <;> omega
  · rw [fetch_beyond (by omega)] at h; cases h

/-- If the fetch faults, it is for one of three reasons: the pc is beyond memory; the opcode byte has no entry; an
operand byte of the entry would lie beyond memory, and then the first that does is at 256. -/
theorem fetch_error {s : State} {e : Raised} (h : fetch s = .error e) :
    (256 ≤ s.pc.toNat ∧ e = ⟨.outOfBounds, some (s.pc.toNat : Int)⟩) ∨
      (s.pc.toNat < 256 ∧ dispatch (s.mem.read s.pc.toNat) = none ∧
        e = ⟨.invalidOpcode, some ((s.mem.read s.pc.toNat).toNat : Int)⟩) ∨
      (s.pc.toNat < 256 ∧ (∃ row, dispatch (s.mem.read s.pc.toNat) = some row ∧ 256 < s.pc.toNat + row.entry.len) ∧
        e = ⟨.outOfBounds, some 256⟩) := by
  by_cases hp : s.pc.toNat < 256
  · rw [fetch_inside hp] at h
    refine .inr ?_
    cases hd : dispatch (s.mem.read s.pc.toNat) with
    | none => rw [hd] at h; cases h; exact .inl ⟨hp, rfl, rfl⟩
    | some row =>
      refine .inr ⟨hp, ⟨row, rfl, ?_⟩, ?_⟩ <;> rw [hd] at h <;> cases hr : row.entry <;>
        simp only [Option.map_some, hr] at h <;> (try split at h) <;> cases h <;>
        simp only [Entry.len] <;> omega
  · rw [fetch_beyond (by omega)] at h; cases h; exact .inl ⟨by omega, rfl⟩

/-! ### The step -/

theorem step_notStarted {s : State} (h : s.runState = .notStarted) : step s = .fault .noStepBeforeStart := by
  simp [step, engineStep, h]

theorem step_halted {s : State} (h : s.runState = .halted) : step s = .fault .noStepWhenHalted := by
  simp [step, engineStep, h]

theorem step_faulted {s : State} (h : s.runState = .faulted) : step s = .fault .noStepWhenFaulted := by
  simp [step, engineStep, h]

theorem step_running {s : State} (h : s.runState = .running) :
    step s = match fetch s with
      | .ok i => exec i s
      | .error e => .next (s.takeFault e) := by
  cases hf : fetch s <;> simp only [step, engineStep, h, runningStep, hf]

/-- What a step that answers a next state did: the engine was Running, and either the fetch faulted, or it answered an
instruction, which was executed. -/
theorem step_next {s t : State} (h : step s = .next t) :
    s.runState = .running ∧
      ((∃ e, fetch s = .error e ∧ t = s.takeFault e) ∨ ∃ i, fetch s = .ok i ∧ exec i s = .next t) := by
  cases hr : s.runState with
  | notStarted => rw [step_notStarted hr] at h; cases h
  | halted => rw [step_halted hr] at h; cases h
  | faulted => rw [step_faulted hr] at h; cases h
  | running =>
    refine ⟨rfl, ?_⟩
    rw [step_running hr] at h
    cases hf : fetch s with
    | error e => rw [hf] at h; cases h; exact .inl ⟨e, rfl, rfl⟩
    | ok i => rw [hf] at h; exact .inr ⟨i, rfl, h⟩

/-! ### Runs -/

@[simp] theorem run_zero (s : State) : core.run 0 s = .next s := rfl

theorem coreRun_succ (M : Host.Core) (k : Nat) (s : M.State) :
    M.run (k + 1) s = match M.step s with
      | .next t => M.run k t
      | .fault f => .fault f
      | .refused r => .refused r := rfl

/-- A run goes on from the next state of its first step. -/
theorem run_next {k : Nat} {s t : State} (h : step s = .next t) : core.run (k + 1) s = core.run k t := by
  have h' : core.step s = .next t := h
  exact (coreRun_succ core k s).trans (by rw [h'])

end Sys2Proof.Machine
end

