-- ==== Sys2Proof/Tests/Slice0.lean ====
section
/-! SUPPORT. Small tests, each of one step or one definition, with expected results from spec/95_test_vectors.md or from
the rule named; and, for each statement that has hypotheses, a witness that they can be met together, clause by clause at
the ends of their ranges. -/

namespace Sys2Proof.Tests

open Sys2Proof.Machine

/-! ### Building states -/

/-- A Running engine as reset leaves it, but for its pc and the bytes in memory from there on. -/
def at' (pc : PcWord) (bytes : List Byte) : State :=
  { State.reset with mem := placeBytes bytes pc.toNat [], pc := pc, runState := .running }

/-- A state with a register set. -/
def withR (s : State) (i : RegIdx) (v : Nat) : State := s.setReg i v

/-- A state with a cell set. -/
def withM (s : State) (a : Nat) (v : Byte) : State := s.setMem (s.mem.write a v)

/-- The next state of an outcome. -/
def nextOf : Host.Outcome State Fault Refusal → Option State
  | .next t => some t
  | _ => none

/-- A field of the state after one step. -/
def after {α : Type} (f : State → α) (s : State) : Option α := (nextOf (step s)).map f

/-! ### Well-formedness: each check refuses an ill-formed term -/

theorem test_wf_ldi : (Instr.ldi 7#8 255#8).wellFormed = true ∧ (Instr.ldi 8#8 0#8).wellFormed = false := by decide
theorem test_wf_prn : (Instr.prn 0#8).wellFormed = true ∧ (Instr.prn 8#8).wellFormed = false := by decide
theorem test_wf_hlt : Instr.hlt.wellFormed = true := by decide
theorem test_wf_mul_a : (Instr.mul 7#8 7#8).wellFormed = true ∧ (Instr.mul 8#8 0#8).wellFormed = false := by decide
theorem test_wf_mul_b : (Instr.mul 0#8 200#8).wellFormed = false := by decide
theorem test_wf_push : (Instr.push 7#8).wellFormed = true ∧ (Instr.push 9#8).wellFormed = false := by decide
theorem test_wf_pop : (Instr.pop 7#8).wellFormed = true ∧ (Instr.pop 255#8).wellFormed = false := by decide

/-! ### Decoding: one word for each constructor, bit by bit from rule R54 -/

theorem test_decode_ldi : decode [0b10000010#8, 0b00000001#8, 0b00000001#8] = .ok (.ldi 1#8 1#8, []) := by decide
theorem test_decode_prn : decode [0b01000111#8, 0b00000101#8] = .ok (.prn 5#8, []) := by decide
theorem test_decode_hlt : decode [0b00000001#8, 0b01000111#8] = .ok (.hlt, [0x47#8]) := by decide
theorem test_decode_mul : decode [0b10100010#8, 0b00000010#8, 0b00000111#8] = .ok (.mul 2#8 7#8, []) := by decide
theorem test_decode_push : decode [0b01000101#8, 0b00000111#8] = .ok (.push 7#8, []) := by decide
theorem test_decode_pop : decode [0b01000110#8, 0b11001000#8] = .ok (.pop 200#8, []) := by decide

/-- Vectors V-DEC-2 to V-DEC-7: the neighbours of the six opcodes are invalid, and so is 0xA0. -/
theorem test_decode_invalid :
    [0x00#8, 0xA0#8, 0xFF#8, 0x02#8, 0x83#8, 0x44#8, 0x48#8].all (fun b => (dispatch b).isNone) = true := by decide

/-- A sequence that ends before an operand is no instruction. -/
theorem test_decode_short :
    decode [0x82#8, 0x00#8] = .error .noOperandB ∧ decode [0x45#8] = .error .noOperandA ∧
      decode [] = .error .noOpcode := by decide

/-- The mnemonics and lengths of the source's table (rule R54). -/
theorem test_table_rows :
    dispatchTable.map (fun r => (r.opcode, r.entry.len)) =
      [(0x82#8, 3), (0x47#8, 2), (0x01#8, 1), (0xA2#8, 3), (0x45#8, 2), (0x46#8, 2)] := by decide

/-- The opcode table's numbering: the first byte is the least significant; bits above the table's are 0. -/
theorem test_table_word :
    decodeTableWord 24 0x080082 = some (.ldi 0#8 8#8) ∧ decodeTableWord 8 0x82 = some (.ldi 0#8 0#8) ∧
      decodeTableWord 8 0x0545 = some (.push 0#8) ∧ decodeTableWord 8 0x00 = none := by decide

/-! ### One step of each instruction -/

/-- V-LDI-1. -/
theorem test_ldi : after (fun t => (t.reg 0, t.pc)) (at' 0#9 [0x82#8, 0x00#8, 0x08#8]) = some (8#8, 3#9) := by decide

/-- V-LDI-7: the index is the whole byte, and the fault is precise. -/
theorem test_ldi_invalid : after (fun t => (t.runState, t.fault, t.pc)) (at' 0#9 [0x82#8, 0xFF#8, 0x01#8]) =
    some (.faulted, some ⟨.invalidRegister, 0#9, some 255⟩, 0#9) := by decide

/-- V-MUL-7: 200 times 3 is 600, that is 88 modulo 256. -/
theorem test_mul : after (fun t => (t.reg 0, t.reg 1, t.pc))
    (withR (withR (at' 0#9 [0xA2#8, 0x00#8, 0x01#8]) 0 200) 1 3) = some (88#8, 3#8, 3#9) := by decide

/-- V-MUL-10: MUL R2,R2 squares, both operands read before the write. -/
theorem test_mul_same : after (fun t => t.reg 2) (withR (at' 0#9 [0xA2#8, 0x02#8, 0x02#8]) 2 13) = some 169#8 := by decide

/-- V-ST-1. -/
theorem test_push : after (fun t => (t.reg 7, t.mem.read 0xF3, t.pc)) (withR (at' 0#9 [0x45#8, 0x00#8]) 0 0x2A) =
    some (0xF3#8, 0x2A#8, 2#9) := by decide

/-- V-ST-10: PUSH R7 stores the decremented pointer. -/
theorem test_push_sp : after (fun t => (t.reg 7, t.mem.read 0xF3)) (at' 0#9 [0x45#8, 0x07#8]) =
    some (0xF3#8, 0xF3#8) := by decide

/-- V-ST-2: the popped cell keeps its content. -/
theorem test_pop : after (fun t => (t.reg 1, t.reg 7, t.mem.read 0xF3))
    (withM (withR (at' 0#9 [0x46#8, 0x01#8]) 7 0xF3) 0xF3 0x2A#8) = some (0x2A#8, 0xF4#8, 0x2A#8) := by decide

/-- V-ST-12: POP R7 of 0xFF wraps to 0. -/
theorem test_pop_sp : after (fun t => t.reg 7) (withM (withR (at' 0#9 [0x46#8, 0x07#8]) 7 0xF3) 0xF3 0xFF#8) =
    some 0#8 := by decide

/-- V-SYS-4: PRN R7 at launch emits 244. -/
theorem test_prn : after (fun t => (t.out, t.pc)) (at' 0#9 [0x47#8, 0x07#8]) = some ([244#8], 2#9) := by decide

/-- V-SYS-6: the pc stays at the HLT. -/
theorem test_hlt : after (fun t => (t.runState, t.pc, t.out)) (at' 0#9 [0x01#8]) = some (.halted, 0#9, []) := by decide

/-- HLT in the last cell halts (V-TOP-1, last step). -/
theorem test_hlt_top : after (fun t => (t.runState, t.pc)) (at' 255#9 [0x01#8]) = some (.halted, 255#9) := by decide

/-! ### Faults of the fetch and of the stack -/

/-- V-TOP-3 and V-TOP-4, last steps: an operand byte would lie at 256. -/
theorem test_fetch_operand_top :
    after (·.fault) (at' 254#9 [0x82#8, 0x00#8]) = some (some ⟨.outOfBounds, 254#9, some 256⟩) ∧
      after (·.fault) (at' 255#9 [0x47#8]) = some (some ⟨.outOfBounds, 255#9, some 256⟩) := by decide

/-- V-TOP-2, last step, and V-TOP-5, last step. -/
theorem test_fetch_opcode_top :
    after (·.fault) (at' 256#9 []) = some (some ⟨.outOfBounds, 256#9, some 256⟩) ∧
      after (·.fault) (at' 255#9 [0xFF#8]) = some (some ⟨.invalidOpcode, 255#9, some 255⟩) := by decide

/-- V-ST-5 and V-ST-6: push below address 0, pop from the empty stack. -/
theorem test_stack_faults :
    after (fun t => (t.fault, t.reg 7)) (withR (at' 0#9 [0x45#8, 0x00#8]) 7 0) =
        some (some ⟨.outOfBounds, 0#9, some (-1)⟩, 0#8) ∧
      after (fun t => (t.fault, t.reg 7)) (at' 0#9 [0x46#8, 0x00#8]) =
        some (some ⟨.outOfBounds, 0#9, some 244⟩, 0xF4#8) := by decide

/-- V-ST-13: the register check precedes the stack bound. -/
theorem test_push_priority : after (·.fault) (withR (at' 0#9 [0x45#8, 0x09#8]) 7 0) =
    some (some ⟨.invalidRegister, 0#9, some 9⟩) := by decide

/-! ### Memory, host and text -/

/-- Writing 0 removes the entry; the list stays sorted. -/
theorem test_memory_canonical :
    Memory.write (Memory.write (Memory.write [] 9 1#8) 4 2#8) 9 0#8 = [(4, 2#8)] ∧
      Memory.write (Memory.write [] 9 1#8) 4 2#8 = [(4, 2#8), (9, 1#8)] := by decide

/-- The example of rule R61: the line of LDI's opcode, and the shorter literal of example S10. -/
theorem test_text_lines :
    readLine ['1', '0', '0', '0', '0', '0', '1', '0', ' ', '#', ' ', 'L'] = .byte 0x82#8 ∧
      readLine ['1', ' ', ' ', '#', ' ', 'H'] = .byte 1#8 ∧ readLine ['#', 'x'] = .skip ∧ readLine [] = .skip ∧
      readLine ['1', '2'] = .malformed := by decide

/-- V-SYS-1 to V-SYS-3: 72, 0 and 255 as the host prints them. -/
theorem test_render : renderOut [72#8, 0#8, 255#8] = ['7', '2', '\n', '0', '\n', '2', '5', '5', '\n'] := by decide

/-- The style of rule R61: `LDI R0,8`. -/
theorem test_asm_operands : commaSeparated (asmOperands (.ldi 0#8 8#8)) = ['R', '0', ',', '8'] := by decide

/-! ### Witnesses: the hypotheses of each statement can be met -/

theorem witness_StepRunsDecodedInstruction :
    let s := at' 253#9 [0x82#8, 0x07#8, 0xFF#8]
    s.runState = .running ∧ s.pc.toNat + 3 ≤ 256 ∧ decode (s.bytesAt s.pc.toNat 3) = .ok (.ldi 7#8 255#8, []) := by
  decide

theorem witness_PlacedWordIsNextRun :
    (at' 253#9 []).pc.toNat ≤ 253 ∧ decodeTableWord 16 0x0047 = some (.prn 0#8) := by decide

theorem witness_TerminalStatesTakeNoStep :
    (State.reset.setRunState .halted).runState = .halted ∧ (State.reset.setRunState .faulted).runState = .faulted := by
  decide

theorem witness_InvalidOpcodeFaults :
    let s := at' 255#9 [0xA0#8]
    s.runState = .running ∧ s.pc.toNat ≤ 255 ∧
      s.mem.read s.pc.toNat ∉ [0x82#8, 0x47#8, 0x01#8, 0xA2#8, 0x45#8, 0x46#8] := by decide

theorem witness_FetchAtTopOfMemoryFaults : (at' 256#9 []).runState = .running ∧ (at' 256#9 []).pc = 256#9 := by decide

theorem witness_OperandFetchReadsOnlyOwnBytes_beyond :
    (at' 255#9 [0x46#8]).runState = .running ∧
      (at' 255#9 [0x46#8]).mem.read 255 ∈ [0x82#8, 0x47#8, 0xA2#8, 0x45#8, 0x46#8] ∧
      (at' 254#9 [0xA2#8]).mem.read 254 ∈ [0x82#8, 0xA2#8] ∧ (at' 255#9 [0x01#8]).mem.read 255 = 0x01#8 := by decide

theorem witness_OperandFetchReadsOnlyOwnBytes_inside :
    (at' 254#9 [0x47#8]).mem.read 254 = 0x47#8 ∧ (at' 254#9 [0x45#8]).mem.read 254 = 0x45#8 ∧
      (at' 254#9 [0x46#8]).mem.read 254 = 0x46#8 ∧ (at' 253#9 [0x82#8]).mem.read 253 = 0x82#8 ∧
      (at' 253#9 [0xA2#8]).mem.read 253 = 0xA2#8 := by decide

theorem witness_LdiWritesOneRegister :
    (7#8 : Byte).toNat < 8 ∧ (nextOf (exec (.ldi 7#8 255#8) (at' 253#9 []))).isSome = true ∧
      (at' 253#9 []).pc.toNat ≤ 253 := by decide

theorem witness_MulWritesTruncatedProduct :
    (7#8 : Byte).toNat < 8 ∧ (0#8 : Byte).toNat < 8 ∧ (nextOf (exec (.mul 7#8 0#8) (at' 253#9 []))).isSome = true ∧
      (at' 253#9 []).pc.toNat ≤ 253 := by decide

/-- The lowest legal push, of another register and of R7, and the highest pc (V-ST-4). -/
theorem witness_PushStoresOneCell :
    let s := withR (at' 254#9 []) 7 1
    (0#8 : Byte).toNat < 8 ∧ (7#8 : Byte).toNat < 8 ∧ s.reg spIdx ≠ 0#8 ∧ pushAddr s = .ok 0 ∧
      (nextOf (exec (.push 7#8) s)).isSome = true ∧ s.pc.toNat ≤ 254 := by decide

/-- The highest legal pop (V-ST-7), into another register and into R7. -/
theorem witness_PopLoadsOneCell :
    let s := withR (at' 254#9 []) 7 0xF3
    (0#8 : Byte).toNat < 8 ∧ (0#8 : Byte).toNat ≠ 7 ∧ (7#8 : Byte).toNat = 7 ∧ (s.reg spIdx).toNat < 0xF4 ∧
      (nextOf (exec (.pop 7#8) s)).isSome = true ∧ s.pc.toNat ≤ 254 := by decide

theorem witness_PrnAppendsRegister :
    (7#8 : Byte).toNat < 8 ∧ (nextOf (exec (.prn 7#8) (at' 254#9 []))).isSome = true ∧
      (at' 254#9 []).pc.toNat ≤ 254 := by decide

theorem witness_PushAndPopOfStackPointer :
    (withR State.reset 7 1).reg spIdx ≠ 0#8 ∧ ((withR State.reset 7 0xF3).reg spIdx).toNat < 0xF4 := by decide

/-- PUSH at its lowest pointer and POP at its highest; the other stack bound is no hypothesis of an instruction. -/
theorem witness_WellFormedInstructionsComplete :
    (Instr.push 0#8).wellFormed = true ∧ (∀ r, Instr.push 0#8 = .push r → (withR State.reset 7 1).reg spIdx ≠ 0#8) ∧
      (∀ r, Instr.push 0#8 = .pop r → ((withR State.reset 7 1).reg spIdx).toNat < 0xF4) ∧
      (Instr.pop 0#8).wellFormed = true ∧
      (∀ r, Instr.pop 0#8 = .push r → (withR State.reset 7 0xF3).reg spIdx ≠ 0#8) ∧
      (∀ r, Instr.pop 0#8 = .pop r → ((withR State.reset 7 0xF3).reg spIdx).toNat < 0xF4) := by
  refine ⟨by decide, ?_, ?_, by decide, ?_, ?_⟩
  · intro r _; decide
  · intro r h; cases h
  · intro r h; cases h
  · intro r _; decide

theorem witness_InvalidRegisterFaults :
    8 ≤ (8#8 : Byte).toNat ∧ 8 ≤ (255#8 : Byte).toNat ∧ (7#8 : Byte).toNat < 8 ∧
      (nextOf (exec (.push 7#8) State.reset)).isSome = true := by decide

theorem witness_InvalidRegisterExactlyWhenIllFormed :
    (at' 0#9 []).runState = .running ∧ (Instr.mul 0#8 8#8).wellFormed = false ∧ Instr.hlt.wellFormed = true := by decide

theorem witness_StackBoundsFault :
    (7#8 : Byte).toNat < 8 ∧ (withR State.reset 7 0).reg spIdx = 0#8 ∧ (withR State.reset 7 1).reg spIdx ≠ 0#8 ∧
      0xF4 ≤ ((withR State.reset 7 0xF4).reg spIdx).toNat ∧ ((withR State.reset 7 0xF3).reg spIdx).toNat < 0xF4 := by
  decide

/-- The empty image faults at once (V-DEC-1). -/
theorem witness_FaultsArePrecise : ∃ t, step (at' 0#9 []) = .next t ∧ t.runState = .faulted := ⟨_, rfl, rfl⟩

theorem witness_StepNeverRaisesUnsupportedAlu :
    ∃ t, step (at' 256#9 []) = .next t ∧ t.runState = .faulted := ⟨_, rfl, rfl⟩

/-- The checks of the fetch, at the ends of their ranges: opcode beyond memory, no opcode in the last cell, operands
beyond memory. -/
theorem witness_FirstFailingCheckIsReported_fetch :
    [at' 256#9 [], at' 255#9 [0xFF#8], at' 255#9 [0x46#8], at' 254#9 [0xA2#8, 0x09#8]].map (after (·.fault)) =
      [some (some ⟨.outOfBounds, 256#9, some 256⟩), some (some ⟨.invalidOpcode, 255#9, some 255⟩),
        some (some ⟨.outOfBounds, 255#9, some 256⟩), some (some ⟨.outOfBounds, 254#9, some 256⟩)] ∧
      (at' 256#9 []).runState = .running ∧ (at' 256#9 []).pc.toNat ≤ 256 := by decide

/-- The checks of the handlers: a register index of 8 before either stack bound, A before B, then the bounds. -/
theorem witness_FirstFailingCheckIsReported_operands :
    [withR (at' 254#9 [0x45#8, 0x08#8]) 7 0, withR (at' 254#9 [0x46#8, 0xFF#8]) 7 0xFF,
        at' 253#9 [0xA2#8, 0x08#8, 0x09#8], at' 253#9 [0xA2#8, 0x07#8, 0x08#8],
        withR (at' 0#9 [0x45#8, 0x00#8]) 7 0, at' 0#9 [0x46#8, 0x07#8], at' 255#9 [0x01#8]].map (after (·.fault)) =
      [some (some ⟨.invalidRegister, 254#9, some 8⟩), some (some ⟨.invalidRegister, 254#9, some 255⟩),
        some (some ⟨.invalidRegister, 253#9, some 8⟩), some (some ⟨.invalidRegister, 253#9, some 8⟩),
        some (some ⟨.outOfBounds, 0#9, some (-1)⟩), some (some ⟨.outOfBounds, 0#9, some 244⟩), some none] := by decide

/-- Each cause can be recorded. -/
theorem witness_FaultCauseCodes :
    State.reset.fault = none ∧ [Cause.invalidOpcode, .outOfBounds, .invalidRegister, .unsupportedALUOperation].all
      (fun c => (State.reset.takeFault ⟨c, none⟩).fault == some ⟨c, 0#9, none⟩) = true := by decide

theorem witness_AluContract :
    8 ≤ (8#8 : Byte).toNat ∧ (7#8 : Byte).toNat < 8 := by decide

/-- The four ADD vectors of part 2: 200 + 100, 255 + 1, 0 + 0, 127 + 1. -/
theorem test_alu_add :
    [(200#8, 100#8), (255#8, 1#8), (0#8, 0#8), (127#8, 1#8)].map
      (fun p => (AluOp.add.result p.1 p.2).map (BitVec.ofNat 8)) =
      [some 44#8, some 0#8, some 0#8, some 128#8] := by decide

theorem witness_MulIsLowByteOfSignedProduct : (0#8 : Byte).toNat < 8 ∧ (7#8 : Byte).toNat < 8 := by decide

theorem witness_PcIsMonotonic : ∃ t, step (at' 254#9 [0x47#8, 0x00#8]) = .next t ∧ t.runState = .running :=
  ⟨_, rfl, rfl⟩

theorem witness_PcAdvancesByDispatchedLength :
    let s := at' 253#9 [0x82#8, 0x00#8, 0x07#8]
    s.pc.toNat + 3 ≤ 256 ∧ decode (s.bytesAt s.pc.toNat 3) = .ok (.ldi 0#8 7#8, []) ∧
      ∃ t, step s = .next t ∧ t.runState ≠ .faulted :=
  ⟨by decide, by decide, _, rfl, by decide⟩

theorem witness_PcAdvancesByDispatchedLength_fault :
    let s := at' 254#9 [0x47#8, 0x08#8]
    s.pc.toNat + 2 ≤ 256 ∧ decode (s.bytesAt s.pc.toNat 2) = .ok (.prn 8#8, []) ∧
      ∃ t, step s = .next t ∧ t.runState = .faulted :=
  ⟨by decide, by decide, _, rfl, rfl⟩

theorem witness_JumpContractUnusedByHandlers : (at' 0#9 []).runState = .running := rfl

theorem witness_EveryRunEnds : (at' 0#9 []).runState = .running ∧ (at' 256#9 []).runState = .running := by decide

theorem witness_OnlyPushChangesMemory :
    ∃ t, exec (.push 7#8) State.reset = .next t ∧ t.mem.read 0xF3 ≠ State.reset.mem.read 0xF3 :=
  ⟨_, rfl, by decide⟩

theorem witness_RegisterWritesAreTheTable :
    ∃ t, exec (.ldi 7#8 1#8) State.reset = .next t ∧ t.reg 7 ≠ State.reset.reg 7 := ⟨_, rfl, by decide⟩

theorem witness_OutputIsAppendOnly :
    ∃ t, exec (.prn 7#8) State.reset = .next t ∧ t.out ≠ State.reset.out := ⟨_, rfl, by decide⟩

/-- PUSH R0 at the highest pc of the range, into the cell fetched next; the byte pushed is HLT's (as in P5), or no
opcode. -/
theorem witness_PushedByteIsFetchedNext :
    let s := withR (withR (at' 252#9 [0x45#8, 0x00#8]) 7 255) 0 1
    let u := withR (at' 252#9 [0x45#8, 0x00#8]) 7 255
    (0#8 : Byte).toNat < 7 ∧ s.runState = .running ∧ s.pc.toNat ≤ 252 ∧ s.mem.read 252 = 0x45#8 ∧ s.mem.read 253 = 0#8 ∧
      (s.reg spIdx).toNat = s.pc.toNat + 3 ∧ s.reg 0 = 0x01#8 ∧ (u.reg spIdx).toNat = u.pc.toNat + 3 ∧
      (dispatch (u.reg 0)).isNone = true := by decide

/-- The reset state meets the invariant. -/
theorem reset_inv : State.reset.Inv where
  memCanonical := wf_nil
  pcInRange := by decide
  faultIffFaulted := by decide
  faultAtPc := fun _ h => by cases h
  faultInRange := fun _ h => by cases h
  resetBeforeStart := fun _ => rfl

/-- So does every Running engine with the pc in range and no fault record. -/
theorem at'_inv (pc : PcWord) (bytes : List Byte) (h : pc.toNat ≤ 256) : (at' pc bytes).Inv where
  memCanonical := wf_placeBytes _ _ wf_nil
  pcInRange := h
  faultIffFaulted := by simp [at', State.reset]
  faultAtPc := fun _ h => by cases h
  faultInRange := fun _ h => by cases h
  resetBeforeStart := fun h => by cases h

theorem witness_FaultRecordWrittenWithFaulted :
    ((at' 0#9 []).Inv ∧ ∃ t, step (at' 0#9 []) = .next t ∧ t.runState = .faulted) ∧
      (at' 255#9 [0x01#8]).Inv ∧ ∃ t, step (at' 255#9 [0x01#8]) = .next t ∧ t.runState = .halted :=
  ⟨⟨at'_inv _ _ (by decide), _, rfl, rfl⟩, at'_inv _ _ (by decide), _, rfl, rfl⟩

theorem witness_StepKeepsInvariant : (at' 256#9 []).Inv ∧ ∃ t, step (at' 256#9 []) = .next t :=
  ⟨at'_inv _ _ (by decide), _, rfl⟩

theorem witness_PushThenPopRestoresRegisters :
    (6#8 : Byte).toNat < 7 ∧ (withR State.reset 7 1).reg spIdx ≠ 0#8 ∧
      ((withR State.reset 7 1).reg spIdx).toNat ≤ 0xF4 ∧ State.reset.reg spIdx ≠ 0#8 ∧
      (State.reset.reg spIdx).toNat ≤ 0xF4 := by decide

theorem witness_PushPushPopPopIsLifo :
    (0#8 : Byte).toNat < 7 ∧ (6#8 : Byte).toNat < 7 ∧ (0#8 : Byte) ≠ 6#8 ∧
      2 ≤ ((withR State.reset 7 2).reg spIdx).toNat ∧ ((withR State.reset 7 2).reg spIdx).toNat ≤ 0xF4 ∧
      2 ≤ (State.reset.reg spIdx).toNat ∧ (State.reset.reg spIdx).toNat ≤ 0xF4 := by decide

theorem witness_StepKeepsOutputBound :
    let s := at' 254#9 [0x47#8, 0x00#8]
    2 * s.out.length ≤ s.pc.toNat ∧ s.pc.toNat ≤ 256 ∧ ∃ t, step s = .next t ∧ t.out.length = 1 :=
  ⟨by decide, by decide, _, rfl, rfl⟩

theorem witness_LaunchStateHoldsImage :
    (List.replicate 256 0x47#8 : List Byte).length ≤ 256 ∧ ([] : List Byte).length ≤ 256 :=
  ⟨(List.length_replicate (n := 256) (a := 0x47#8)).le, Nat.zero_le _⟩

theorem witness_OverlongImageHasNoLaunch : 256 < (List.replicate 257 0x47#8 : List Byte).length :=
  (Nat.lt_succ_self 256).trans_eq (List.length_replicate (n := 257) (a := 0x47#8)).symm

/-- Before start, with nothing loaded, with a byte in the last cell, and with a load that failed; reset is usable among
the moves. -/
theorem witness_NoStepBeforeStart :
    ([] : List HostMove).foldlM (fun x m => hostMove m x) hostReset = some ⟨false, State.reset⟩ ∧
      ([.load 255 1#8] : List HostMove).foldlM (fun x m => hostMove m x) hostReset =
        some ⟨false, withM State.reset 255 1#8⟩ ∧
      ([.load 0 1#8, .load 256 1#8] : List HostMove).foldlM (fun x m => hostMove m x) hostReset =
        some ⟨true, withM State.reset 0 1#8⟩ ∧
      HostMove.start ∉ ([.load 0 1#8, .load 256 1#8] : List HostMove) := by decide

theorem witness_RunStateChangesAsTabled :
    (∃ t, step (at' 255#9 [0x01#8]) = .next t ∧ t.runState = .halted) ∧
      hostMove .start hostReset = some ⟨false, at' 0#9 []⟩ ∧
      hostMove .reset ⟨false, (at' 0#9 []).setRunState .halted⟩ = some hostReset ∧
      (at' 0#9 []).runState ≠ hostReset.state.runState :=
  ⟨⟨_, rfl, rfl⟩, by decide, by decide, by decide⟩

theorem witness_HostMovesKeepInvariant :
    hostReset.state.Inv ∧ hostMove (.load 255 0x47#8) hostReset = some ⟨false, withM State.reset 255 0x47#8⟩ :=
  ⟨reset_inv, by decide⟩

/-- The host starts a reset engine, and may not start it again, nor one whose load failed. -/
theorem witness_StartedEngineAcceptsOnlyReset :
    (at' 0#9 []).runState ≠ .notStarted ∧ hostMove .start ⟨false, at' 0#9 []⟩ = none ∧
      hostMove .start ⟨true, State.reset⟩ = none ∧ hostMove (.load 0 1#8) ⟨true, State.reset⟩ = none := by decide

theorem witness_ExitCodeOfEndStatus :
    ((at' 0#9 []).takeFault ⟨.invalidOpcode, some 0⟩).runState = .faulted ∧
      ((at' 0#9 []).takeFault ⟨.invalidOpcode, some 0⟩).fault = some ⟨.invalidOpcode, 0#9, some 0⟩ ∧
      (State.reset.setRunState .halted).runState = .halted := by decide

theorem witness_OutputRendersAsDecimalLines :
    [0#8, 255#8][0]? = some 0#8 ∧ [decimal 0#8, decimal 255#8][0]? = some ['0'] ∧ [0#8, 255#8][1]? = some 255#8 ∧
      [decimal 0#8, decimal 255#8][1]? = some ['2', '5', '5'] := by decide

theorem witness_ProgramTextLineYieldsByte :
    (∀ d ∈ ['1', '0', '0', '0', '0', '0', '1', '0'], d = '0' ∨ d = '1') ∧
      ['1', '0', '0', '0', '0', '0', '1', '0'] ≠ [] ∧ ['1', '0', '0', '0', '0', '0', '1', '0'].length ≤ 8 ∧
      '#' ∉ [' ', '1'] ∧ 'L' ≠ '0' ∧ 'L' ≠ '1' ∧ 'L' ≠ ' ' ∧ 'L' ≠ '#' := by simp

end Sys2Proof.Tests
end

section
/-! PROOFS. What PUSH and POP do where their checks hold, with their frames (spec/43_stack.md rules R106, R107, R110). -/

namespace Sys2Proof.Machine

/-- Below the top of the 9-bit range the sequencer's sum is the plain sum. -/
theorem pc_add_toNat {pc : PcWord} {n : Nat} (h : pc.toNat + n < 512) :
    (pc + BitVec.ofNat 9 n).toNat = pc.toNat + n := by
  rw [BitVec.toNat_add, BitVec.toNat_ofNat]
  omega

/-- The slot of a register operand is the stack pointer's exactly for operand 7. -/
theorem spIdx_eq_iff {b : Byte} (h : b.toNat < 8) : spIdx = ⟨b.toNat, h⟩ ↔ b.toNat = 7 := by
  simp [spIdx, Fin.ext_iff, eq_comm]

/-- A pointer decremented as a number and written back is the 8-bit predecessor, unless it is 0. -/
theorem ofNat_toNat_pred {b : Byte} (h : b ≠ 0#8) : BitVec.ofNat 8 (b.toNat - 1) = b - 1#8 := by
  bv_omega

/-- PUSH where its checks hold: the handler's state, with the pc advanced by 2. -/
theorem exec_push_ok {a : Byte} (h : a.toNat < 8) {s : State} (hsp : s.reg spIdx ≠ 0#8) :
    exec (.push a) s = .next (((s.setReg spIdx ((s.reg spIdx).toNat - 1)).setMem
      (s.mem.write ((s.reg spIdx).toNat - 1)
        ((s.setReg spIdx ((s.reg spIdx).toNat - 1)).reg ⟨a.toNat, h⟩))).setPc (s.pc + 2#9)) := by
  rw [exec_push, handlerPush_ok h hsp, sequence_next]

/-- POP where its checks hold: the handler's state, with the pc advanced by 2. -/
theorem exec_pop_ok {a : Byte} (h : a.toNat < 8) {s : State} (hsp : (s.reg spIdx).toNat < 0xF4) :
    exec (.pop a) s = .next (((s.setReg ⟨a.toNat, h⟩ (s.mem.read (s.reg spIdx).toNat).toNat).setReg spIdx
      (((s.setReg ⟨a.toNat, h⟩ (s.mem.read (s.reg spIdx).toNat).toNat).reg spIdx).toNat + 1)).setPc
        (s.pc + 2#9)) := by
  rw [exec_pop, handlerPop_ok h hsp, sequence_next]

/-- The value PUSH stores: the register, read after the pointer was decremented (rule R110). -/
theorem reg_after_decrement {a : Byte} (h : a.toNat < 8) {s : State} (hsp : s.reg spIdx ≠ 0#8) :
    (s.setReg spIdx ((s.reg spIdx).toNat - 1)).reg ⟨a.toNat, h⟩ =
      if a.toNat = 7 then s.reg spIdx - 1#8 else s.reg ⟨a.toNat, h⟩ := by
  rw [reg_setReg, ofNat_toNat_pred hsp]
  simp only [spIdx_eq_iff h]

/-- Settles O12: PUSH's state is the handler's (`exec_push_ok`), and each clause reads one field of it. -/
theorem pushStoresOneCell : Obligations.PushStoresOneCell := by
  intro r s h hsp
  refine ⟨_, exec_push_ok h hsp, ?pointer, ?otherRegs, ?cell, pushAddr_ok hsp, ?otherCells, rfl, ?pc, rfl, rfl, rfl⟩
  case pointer => simp [ofNat_toNat_pred hsp]
  case otherRegs =>
    intro j hj
    simp [hj.symm]
  case cell =>
    rw [setPc_mem, setMem_mem, read_write_same]
    exact reg_after_decrement h hsp
  case otherCells =>
    intro a ha b hb
    have hcell : (s.reg spIdx).toNat - 1 = a := by
      rw [pushAddr_ok hsp] at ha
      exact Int.ofNat.inj (Except.ok.inj ha)
    exact read_write_ne _ _ (hcell ▸ hb.symm)
  case pc => exact fun hpc => pc_add_toNat (by omega)

/-- Settles O13: POP's state is the handler's (`exec_pop_ok`). The pointer is incremented last, so it starts from its old
value, or for R7 from the cell just loaded. -/
theorem popLoadsOneCell : Obligations.PopLoadsOneCell := by
  intro r s h hsp
  refine ⟨_, exec_pop_ok h hsp, ?otherThanR7, ?r7, ?otherRegs, fun _ => rfl, rfl, ?pc, rfl, rfl, rfl⟩
  case otherThanR7 =>
    intro hr
    have hne : spIdx ≠ ⟨r.toNat, h⟩ := mt (spIdx_eq_iff h).mp hr
    constructor
    · simp [hne]
    · simp [hne.symm, BitVec.ofNat_add]
  case r7 =>
    intro hr
    have heq : ⟨r.toNat, h⟩ = spIdx := ((spIdx_eq_iff h).mpr hr).symm
    simp [heq]
  case otherRegs =>
    intro j hjr hjsp
    have hne : (⟨r.toNat, h⟩ : RegIdx) ≠ j := fun he => hjr (he ▸ rfl)
    simp [hne, hjsp.symm]
  case pc => exact fun hpc => pc_add_toNat (by omega)

end Sys2Proof.Machine
end

section
/-! PROOFS. How a step changes the pc, by the instruction dispatched (spec/10_state.md rule R17). -/

namespace Sys2Proof.Machine

/-- A stretch of memory from the pc on that decodes to an instruction holds all the bytes the fetch reads: it answers that
instruction. -/
theorem fetch_of_decode {s : State} {n : Nat} {i : Instr} {rest : List Byte} (hn : s.pc.toNat + n ≤ 256)
    (h : decode (s.bytesAt s.pc.toNat n) = .ok (i, rest)) : fetch s = .ok i := by
  cases n with
  | zero => cases h
  | succ n =>
    rw [bytesAt_succ] at h
    rw [fetch_inside (by omega)]
    cases hd : (dispatch (s.mem.read s.pc.toNat)).map Row.entry with
    | none => simp only [decode, hd] at h; cases h
    | some e =>
      cases e with
      | f0 j => simp only [decode, hd] at h; cases h; rfl
      | f1 make =>
        match n with
        | 0 => simp only [decode, hd, bytesAt_zero] at h; cases h
        | n + 1 =>
          simp only [decode, hd, bytesAt_succ] at h
          cases h
          exact if_neg (by omega)
      | f2 make =>
        match n with
        | 0 => simp only [decode, hd, bytesAt_zero] at h; cases h
        | 1 => simp only [decode, hd, bytesAt_succ, bytesAt_zero] at h; cases h
        | n + 2 =>
          simp only [decode, hd, bytesAt_succ] at h
          cases h
          exact if_neg (by omega)

/-- How the handler of every instruction but HLT ends: it raises a fault, or it completes, with the run state and the
fault record as they were. -/
def FaultsOrCompletes (s : State) (r : Except Raised HandlerEnd) : Prop :=
  (∃ e, r = .error e) ∨ ∃ s', r = .ok (.next s') ∧ s'.runState = s.runState ∧ s'.fault = s.fault

theorem handlerLdi_faultsOrCompletes (a b : Byte) (s : State) : FaultsOrCompletes s (handlerLdi a b s) := by
  rcases Nat.lt_or_ge a.toNat 8 with ha | ha
  · exact .inr ⟨_, handlerLdi_ok ha b s, rfl, rfl⟩
  · exact .inl ⟨_, handlerLdi_error ha b s⟩

theorem handlerPrn_faultsOrCompletes (a : Byte) (s : State) : FaultsOrCompletes s (handlerPrn a s) := by
  rcases Nat.lt_or_ge a.toNat 8 with ha | ha
  · exact .inr ⟨_, handlerPrn_ok ha s, rfl, rfl⟩
  · exact .inl ⟨_, handlerPrn_error ha s⟩

theorem handlerMul_faultsOrCompletes (a b : Byte) (s : State) : FaultsOrCompletes s (handlerMul a b s) := by
  rcases Nat.lt_or_ge a.toNat 8 with ha | ha
  · rcases Nat.lt_or_ge b.toNat 8 with hb | hb
    · exact .inr ⟨_, handlerMul_ok ha hb s, rfl, rfl⟩
    · exact .inl ⟨_, handlerMul_error_b ha hb s⟩
  · exact .inl ⟨_, handlerMul_error_a ha b s⟩

theorem handlerPush_faultsOrCompletes (a : Byte) (s : State) : FaultsOrCompletes s (handlerPush a s) := by
  rcases Nat.lt_or_ge a.toNat 8 with ha | ha
  · by_cases hsp : s.reg spIdx = 0#8
    · exact .inl ⟨_, handlerPush_empty ha hsp⟩
    · exact .inr ⟨_, handlerPush_ok ha hsp, rfl, rfl⟩
  · exact .inl ⟨_, handlerPush_error ha s⟩

theorem handlerPop_faultsOrCompletes (a : Byte) (s : State) : FaultsOrCompletes s (handlerPop a s) := by
  rcases Nat.lt_or_ge a.toNat 8 with ha | ha
  · rcases Nat.lt_or_ge (s.reg spIdx).toNat 0xF4 with hsp | hsp
    · exact .inr ⟨_, handlerPop_ok ha hsp, rfl, rfl⟩
    · exact .inl ⟨_, handlerPop_empty ha hsp⟩
  · exact .inl ⟨_, handlerPop_error ha s⟩

/-- How the execution of an instruction of `len` bytes other than HLT ends: the fault is taken, or the pc is advanced by
`len` and the run state and the fault record stay. -/
def FaultsOrAdvances (len : Nat) (s t : State) : Prop :=
  (∃ e, t = s.takeFault e) ∨ (t.pc = s.pc + BitVec.ofNat 9 len ∧ t.runState = s.runState ∧ t.fault = s.fault)

theorem FaultsOrCompletes.sequence {s : State} {r : Except Raised HandlerEnd} (h : FaultsOrCompletes s r) (len : Nat) :
    FaultsOrAdvances len s (sequence len s r) := by
  obtain ⟨e, rfl⟩ | ⟨s', rfl, hrun, hfault⟩ := h
  · exact .inl ⟨e, rfl⟩
  · exact .inr ⟨rfl, hrun, hfault⟩

/-- What executing an instruction does to the pc, the run state and the fault record: HLT changes the run state alone, any
other instruction faults or advances the pc by its length. -/
theorem exec_next {i : Instr} {s t : State} (h : exec i s = .next t) :
    (i = .hlt ∧ t = s.setRunState .halted) ∨ (i ≠ .hlt ∧ FaultsOrAdvances i.length s t) := by
  cases i with
  | hlt => cases h; exact .inl ⟨rfl, rfl⟩
  | ldi a b => cases h; exact .inr ⟨nofun, (handlerLdi_faultsOrCompletes a b s).sequence 3⟩
  | prn a => cases h; exact .inr ⟨nofun, (handlerPrn_faultsOrCompletes a s).sequence 2⟩
  | mul a b => cases h; exact .inr ⟨nofun, (handlerMul_faultsOrCompletes a b s).sequence 3⟩
  | push a => cases h; exact .inr ⟨nofun, (handlerPush_faultsOrCompletes a s).sequence 2⟩
  | pop a => cases h; exact .inr ⟨nofun, (handlerPop_faultsOrCompletes a s).sequence 2⟩

/-- In a step of a Running engine the pc stays at an instruction that faults, and else moves on by exactly its length. -/
theorem FaultsOrAdvances.pc {len : Nat} {s t : State} (h : FaultsOrAdvances len s t) (hs : s.runState = .running)
    (hlen : s.pc.toNat + len ≤ 256) :
    (t.runState = .faulted → t.pc = s.pc) ∧ (t.runState ≠ .faulted → t.pc.toNat = s.pc.toNat + len) := by
  obtain ⟨e, rfl⟩ | ⟨hpc, hrun, -⟩ := h
  · exact ⟨fun _ => rfl, fun hne => absurd rfl hne⟩
  · refine ⟨fun hf => ?_, fun _ => ?_⟩
    · rw [hrun, hs] at hf
      cases hf
    · rw [hpc, pc_add_toNat (by omega)]

/-- Where the fetch answers an instruction, a step that answers a next state was a Running
engine's and executed it. -/
theorem step_next_of_fetch {s t : State} {i : Instr} (hf : fetch s = .ok i) (h : step s = .next t) :
    s.runState = .running ∧ exec i s = .next t := by
  obtain ⟨hrun, ⟨e, he, -⟩ | ⟨j, hj, hexec⟩⟩ := step_next h
  · rw [hf] at he
    cases he
  · rw [hf] at hj
    cases hj
    exact ⟨hrun, hexec⟩

/-- Settles O27: the fetch answers the decoded instruction (`fetch_of_decode`), which lies inside memory (`fetch_ok`), so
the 9-bit sum does not wrap; executing it either halts, or faults or advances the pc by its length (`exec_next`). -/
theorem pcAdvancesByDispatchedLength : Obligations.PcAdvancesByDispatchedLength := by
  intro s t n i rest hn hdec hstep
  have hfetch : fetch s = .ok i := fetch_of_decode hn hdec
  obtain ⟨hrun, hexec⟩ := step_next_of_fetch hfetch hstep
  obtain ⟨rfl, rfl⟩ | ⟨hne, hadv⟩ := exec_next hexec
  · exact ⟨nofun, fun _ => ⟨rfl, rfl⟩⟩
  · have hpc := hadv.pc hrun (fetch_ok hfetch).1
    cases i with
    | hlt => exact absurd rfl hne
    | ldi | prn | mul | push | pop => exact hpc

end Sys2Proof.Machine
end

section
/-! PROOFS. A byte that is no opcode ends the run with InvalidOpcode (spec/30_encoding.md rule R55,
spec/60_exceptions.md rule R133). -/

namespace Sys2Proof.Machine

/-- The dispatch table has no entry for a byte other than the six opcodes (rule R55). -/
theorem dispatch_eq_none {op : Byte} (h : op ∉ [0x82#8, 0x47#8, 0x01#8, 0xA2#8, 0x45#8, 0x46#8]) :
    dispatch op = none := by
  rcases dispatch_cases op with rfl | rfl | rfl | rfl | rfl | rfl | ⟨hnone, -⟩
  case inr.inr.inr.inr.inr.inr => exact hnone
  all_goals exact absurd (by decide) h

/-- Inside memory, a byte without a dispatch-table entry makes the fetch raise InvalidOpcode with that byte. No operand
byte is read, so this holds in the last cell too. -/
theorem fetch_invalidOpcode {s : State} (hpc : s.pc.toNat < 256) (h : dispatch (s.mem.read s.pc.toNat) = none) :
    fetch s = .error ⟨.invalidOpcode, some ((s.mem.read s.pc.toNat).toNat : Int)⟩ := by
  rw [fetch_inside hpc, h, Option.map_none]

/-- A Running engine whose fetch raises a fault takes that fault. -/
theorem step_of_fetch_error {s : State} {e : Raised} (hrun : s.runState = .running) (hf : fetch s = .error e) :
    step s = .next (s.takeFault e) := by
  rw [step_running hrun, hf]

/-- The host's exit code after InvalidOpcode is 1, at whatever pc and for whatever byte (rule R170). -/
theorem exitCode_takeFault_invalidOpcode (s : State) (info : Option Int) :
    exitCode (s.takeFault ⟨.invalidOpcode, info⟩) = some 1 := rfl

/-- Settles O7: the byte has no entry (`dispatch_eq_none`), so the fetch raises InvalidOpcode (`fetch_invalidOpcode`) and
the step takes the fault; the state reached is Faulted, where no step is defined (`step_faulted`). -/
theorem invalidOpcodeFaults : Obligations.InvalidOpcodeFaults := by
  intro s hrun hpc hop
  have hfetch := fetch_invalidOpcode (Nat.lt_succ_of_le hpc) (dispatch_eq_none hop)
  exact ⟨_, step_of_fetch_error hrun hfetch, step_faulted (takeFault_runState _ _),
    exitCode_takeFault_invalidOpcode _ _, rfl⟩

end Sys2Proof.Machine
end

section
/-! PROOFS. The fetch at the edge of memory (spec/40_engine.md rules R72, R74): nothing wraps, and only the bytes that the
opcode's entry calls for are read. -/

namespace Sys2Proof.Machine

/-- A Running engine executes the instruction its fetch answers. -/
theorem step_of_fetch_ok {s : State} {i : Instr} (hrun : s.runState = .running) (hf : fetch s = .ok i) :
    step s = exec i s := by
  rw [step_running hrun, hf]

/-- At 256, one beyond the last cell, the fetch raises OutOfBounds(256): the address does not wrap to 0 (rule R72). -/
theorem fetch_at_top {s : State} (hpc : s.pc = 256#9) : fetch s = .error ⟨.outOfBounds, some 256⟩ := by
  rw [fetch_beyond (by simp [hpc]), hpc]
  rfl

/-- Settles O8: the fetch raises the fault before anything is decoded (`fetch_at_top`), and the step takes it. -/
theorem fetchAtTopOfMemoryFaults : Obligations.FetchAtTopOfMemoryFaults := by
  intro s hrun hpc
  rw [← hpc]
  exact step_of_fetch_error hrun (fetch_at_top hpc)

/-! ### Operand bytes beyond memory -/

/-- Where the last byte an entry calls for lies beyond memory, the fetch raises OutOfBounds(256), whatever the operands
inside memory are: the bytes are read in ascending order, so the first that is beyond is at 256. -/
theorem fetch_operandBeyond {s : State} {row : Row} (hpc : s.pc.toNat < 256)
    (hrow : dispatch (s.mem.read s.pc.toNat) = some row) (hlen : 256 < s.pc.toNat + row.entry.len) :
    fetch s = .error ⟨.outOfBounds, some 256⟩ := by
  rw [fetch_inside hpc, hrow, Option.map_some]
  cases hentry : row.entry with
  | f0 i =>
    rw [hentry, Entry.len] at hlen
    omega
  | f1 make | f2 make =>
    rw [hentry, Entry.len] at hlen
    exact if_pos (by omega)

/-- Every opcode but HLT's calls for an operand (rule R54). -/
theorem exists_row_of_hasOperand {op : Byte} (h : op ∈ [0x82#8, 0x47#8, 0xA2#8, 0x45#8, 0x46#8]) :
    ∃ row, dispatch op = some row ∧ 2 ≤ row.entry.len := by
  simp only [List.mem_cons, List.not_mem_nil, or_false] at h
  rcases h with rfl | rfl | rfl | rfl | rfl <;> exact ⟨_, rfl, by simp [Entry.len]⟩

/-- The opcodes of LDI and MUL call for two operands (rule R54). -/
theorem exists_row_of_hasTwoOperands {op : Byte} (h : op ∈ [0x82#8, 0xA2#8]) :
    ∃ row, dispatch op = some row ∧ 3 ≤ row.entry.len := by
  simp only [List.mem_cons, List.not_mem_nil, or_false] at h
  rcases h with rfl | rfl <;> exact ⟨_, rfl, by simp [Entry.len]⟩

/-- The fault of `fetch_operandBeyond` as the step takes it, at a pc given as a numeral. -/
theorem step_operandBeyond {s : State} {p : PcWord} {row : Row} (hrun : s.runState = .running) (hp : s.pc = p)
    (hlt : p.toNat < 256) (hrow : dispatch (s.mem.read p.toNat) = some row) (hlen : 256 < p.toNat + row.entry.len) :
    step s = .next { s with runState := .faulted, fault := some ⟨.outOfBounds, p, some 256⟩ } := by
  subst hp
  exact step_of_fetch_error hrun (fetch_operandBeyond hlt hrow hlen)

/-! ### Operand bytes inside memory -/

/-- An entry without operands: no byte but the opcode is read, so the opcode may stand in the last cell. -/
theorem fetch_f0 {s : State} {i : Instr} (hpc : s.pc.toNat ≤ 255)
    (hentry : (dispatch (s.mem.read s.pc.toNat)).map Row.entry = some (.f0 i)) : fetch s = .ok i := by
  rw [fetch_inside (by omega), hentry]

/-- An entry with one operand: it is the cell after the opcode. -/
theorem fetch_f1 {s : State} {make : Byte → Instr} (hpc : s.pc.toNat ≤ 254)
    (hentry : (dispatch (s.mem.read s.pc.toNat)).map Row.entry = some (.f1 make)) :
    fetch s = .ok (make (s.mem.read (s.pc.toNat + 1))) := by
  rw [fetch_inside (by omega), hentry]
  exact if_neg (by omega)

/-- An entry with two operands: they are the two cells after the opcode, A then B. -/
theorem fetch_f2 {s : State} {make : Byte → Byte → Instr} (hpc : s.pc.toNat ≤ 253)
    (hentry : (dispatch (s.mem.read s.pc.toNat)).map Row.entry = some (.f2 make)) :
    fetch s = .ok (make (s.mem.read (s.pc.toNat + 1)) (s.mem.read (s.pc.toNat + 2))) := by
  rw [fetch_inside (by omega), hentry]
  exact if_neg (by omega)

/-- Settles O9: an operand beyond memory is the fault of `step_operandBeyond`; inside memory the opcode's row says which
of `fetch_f0`, `fetch_f1` and `fetch_f2` gives the fetched instruction, and the step executes it. -/
theorem operandFetchReadsOnlyOwnBytes : Obligations.OperandFetchReadsOnlyOwnBytes := by
  intro s hrun
  refine ⟨?beyondAt255, ?beyondAt254, ?hlt, ?prn, ?push, ?pop, ?ldi, ?mul⟩
  case beyondAt255 =>
    intro hpc hop
    obtain ⟨row, hrow, hlen⟩ := exists_row_of_hasOperand hop
    exact step_operandBeyond hrun hpc (by decide) hrow (Nat.add_lt_add_left hlen 255)
  case beyondAt254 =>
    intro hpc hop
    obtain ⟨row, hrow, hlen⟩ := exists_row_of_hasTwoOperands hop
    exact step_operandBeyond hrun hpc (by decide) hrow (Nat.add_lt_add_left hlen 254)
  case hlt =>
    intro hpc hop
    have hfetch : fetch s = .ok .hlt := fetch_f0 hpc (hop ▸ rfl)
    exact (step_of_fetch_ok hrun hfetch).trans (exec_hlt s)
  case prn => exact fun hpc hop => step_of_fetch_ok hrun (fetch_f1 hpc (hop ▸ rfl))
  case push => exact fun hpc hop => step_of_fetch_ok hrun (fetch_f1 hpc (hop ▸ rfl))
  case pop => exact fun hpc hop => step_of_fetch_ok hrun (fetch_f1 hpc (hop ▸ rfl))
  case ldi => exact fun hpc hop => step_of_fetch_ok hrun (fetch_f2 hpc (hop ▸ rfl))
  case mul => exact fun hpc hop => step_of_fetch_ok hrun (fetch_f2 hpc (hop ▸ rfl))

end Sys2Proof.Machine
end

section
/-! PROOFS. What LDI does with a valid register, with its frame (spec/41_load_immediate.md rules R90, R91). -/

namespace Sys2Proof.Machine

/-- LDI where its check holds: the handler's state, with the pc advanced by 3. -/
theorem exec_ldi_ok {a : Byte} (h : a.toNat < 8) (b : Byte) (s : State) :
    exec (.ldi a b) s = .next ((s.setReg ⟨a.toNat, h⟩ b.toNat).setPc (s.pc + 3#9)) := by
  rw [exec_ldi, handlerLdi_ok h, sequence_next]

/-- Settles O10: LDI's state is the handler's (`exec_ldi_ok`), one register written and the pc set, and each clause reads
one field of it. -/
theorem ldiWritesOneRegister : Obligations.LdiWritesOneRegister := by
  intro r v s h
  refine ⟨_, exec_ldi_ok h v s, ?register, ?otherRegs, rfl, ?pc, fun _ => rfl, rfl, rfl, rfl⟩
  case register => simp
  case otherRegs =>
    intro j hj
    have hne : (⟨r.toNat, h⟩ : RegIdx) ≠ j := fun he => hj (he ▸ rfl)
    simp [hne]
  case pc => exact fun hpc => pc_add_toNat (by omega)

end Sys2Proof.Machine
end

section
/-! PROOFS. What MUL does with valid registers, with its frame (spec/42_alu.md rules R96, R100). -/

namespace Sys2Proof.Machine

/-- MUL where its checks hold: both old values are read before the write, and the pc is advanced by 3. -/
theorem exec_mul_ok {a b : Byte} (ha : a.toNat < 8) (hb : b.toNat < 8) (s : State) :
    exec (.mul a b) s =
      .next ((s.setReg ⟨a.toNat, ha⟩ ((s.reg ⟨a.toNat, ha⟩).toNat * (s.reg ⟨b.toNat, hb⟩).toNat)).setPc
        (s.pc + 3#9)) := by
  rw [exec_mul, handlerMul_ok ha hb, sequence_next]

/-- A register write leaves the registers of another number. -/
theorem reg_setReg_of_val_ne {i j : RegIdx} (h : j.val ≠ i.val) (s : State) (v : Nat) :
    (s.setReg i v).reg j = s.reg j := by
  rw [reg_setReg, if_neg fun hij => h (congrArg Fin.val hij.symm)]

/-- Settles O11: MUL's state is the handler's (`exec_mul_ok`), and the register write truncates the exact product to 8
bits. The product is of the old state, so one register in both places needs no case of its own. -/
theorem mulWritesTruncatedProduct : Obligations.MulWritesTruncatedProduct := by
  intro ra rb s ha hb
  refine ⟨_, exec_mul_ok ha hb s, ?product, ?otherRegs, rfl, ?pc, fun _ => rfl, rfl, rfl, rfl⟩
  case product => rw [setPc_reg, reg_setReg, if_pos rfl, BitVec.toNat_ofNat]
  case otherRegs => exact fun j hj => reg_setReg_of_val_ne hj s _
  case pc => exact fun hpc => pc_add_toNat (by omega)

end Sys2Proof.Machine
end

section
/-! PROOFS. The two stack bounds: PUSH at pointer 0 and POP at or above SP_RESET fault (spec/43_stack.md rule R108). -/

namespace Sys2Proof.Machine

/-- PUSH with the pointer at 0: the fault is taken in the state the instruction began in. -/
theorem exec_push_empty {a : Byte} (h : a.toNat < 8) {s : State} (hsp : s.reg spIdx = 0#8) :
    exec (.push a) s = .next (s.takeFault ⟨.outOfBounds, some (-1)⟩) := by
  rw [exec_push, handlerPush_empty h hsp, sequence_error]

/-- POP with the pointer at or above SP_RESET: the fault is taken in the state the instruction began in. -/
theorem exec_pop_empty {a : Byte} (h : a.toNat < 8) {s : State} (hsp : 0xF4 ≤ (s.reg spIdx).toNat) :
    exec (.pop a) s = .next (s.takeFault ⟨.outOfBounds, some ((s.reg spIdx).toNat : Int)⟩) := by
  rw [exec_pop, handlerPop_empty h hsp, sequence_error]

/-- Settles O20: on each side of its bound an instruction has one known end, a taken fault (`exec_push_empty`,
`exec_pop_empty`) or the completed handler's state (`exec_push_ok`, `exec_pop_ok`). -/
theorem stackBoundsFault : Obligations.StackBoundsFault := by
  intro r s h
  refine ⟨exec_push_empty h, ?pushCompletes, exec_pop_empty h, fun hsp => ⟨_, exec_pop_ok h hsp, rfl, rfl⟩⟩
  case pushCompletes =>
    intro hsp
    refine ⟨_, exec_push_ok h hsp, rfl, rfl, ?cell⟩
    case cell =>
      intro hr
      rw [setPc_mem, setMem_mem, read_write_same, reg_after_decrement h hsp, if_neg hr]

end Sys2Proof.Machine
end

section
/-! PROOFS. HLT: the halt in place and what follows it (spec/44_system.md rules R117, R118). -/

namespace Sys2Proof.Machine

/-- The host's exit code of a Halted engine is 0, whatever else its state holds (rule R170). -/
theorem exitCode_halted {s : State} (h : s.runState = .halted) : exitCode s = some 0 := by
  rw [exitCode, h]

/-- Settles O15: HLT's state differs in the run state alone (`exec_hlt`), and no step is defined in a Halted state
(`step_halted`). -/
theorem hltHaltsInPlace : Obligations.HltHaltsInPlace := by
  intro s
  have hrun : (s.setRunState .halted).runState = .halted := setRunState_runState s _
  exact ⟨_, exec_hlt s, hrun, setRunState_pc s _, setRunState_reg s _, fun _ => rfl, setRunState_fault s _,
    setRunState_out s _, step_halted hrun, exitCode_halted hrun⟩

end Sys2Proof.Machine
end

section
/-! PROOFS. The decimal rendering of the output (spec/44_system.md rule R116): first the digits of a byte as numbers, then
the characters that stand for them. -/

namespace Sys2Proof.Machine

/-! ### Digits as numbers -/

/-- `ds` is the shortest decimal numeral of `n`, most significant digit first: no leading zero but in the numeral 0. -/
structure IsNumeral (ds : List Nat) (n : Nat) : Prop where
  nonempty : ds ≠ []
  digit : ∀ d ∈ ds, d < 10
  value : ds.foldl (fun n d => 10 * n + d) 0 = n
  noLeadingZero : ds.head? = some 0 → ds = [0]

theorem isNumeral_one {n : Nat} (h : n < 10) : IsNumeral [n] n where
  nonempty := nofun
  digit := by simp [h]
  value := by simp
  noLeadingZero := by simp

theorem isNumeral_two {n : Nat} (hlo : 10 ≤ n) (hhi : n < 100) : IsNumeral [n / 10, n % 10] n where
  nonempty := nofun
  digit := by simp; omega
  value := by simp; omega
  noLeadingZero := by simp; omega

theorem isNumeral_three {n : Nat} (hlo : 100 ≤ n) (hhi : n < 1000) :
    IsNumeral [n / 100, n / 10 % 10, n % 10] n where
  nonempty := nofun
  digit := by simp; omega
  value := by simp; omega
  noLeadingZero := by simp; omega

/-- What `decimal` writes: the digits of the byte's numeral. -/
theorem decimal_eq_map_digitChar (v : Byte) : ∃ ds, decimal v = ds.map digitChar ∧ IsNumeral ds v.toNat := by
  have hv : v.toNat < 256 := v.isLt
  rw [decimal]
  by_cases h10 : v.toNat < 10
  · exact ⟨_, if_pos h10, isNumeral_one h10⟩
  · by_cases h100 : v.toNat < 100
    · exact ⟨_, (if_neg h10).trans (if_pos h100), isNumeral_two (by omega) h100⟩
    · exact ⟨_, (if_neg h10).trans (if_neg h100), isNumeral_three (by omega) (by omega)⟩

/-! ### Digits as characters -/

theorem digitChar_toNat {d : Nat} (h : d < 10) : (digitChar d).toNat = 48 + d := by
  decide +revert

/-- Only the digit 0 is written `0`. -/
theorem digitChar_eq_zero {d : Nat} (h : d < 10) (h0 : digitChar d = '0') : d = 0 := by
  have hcode : 48 + d = 48 := digitChar_toNat h ▸ congrArg Char.toNat h0
  omega

/-- `l` is what rule R116 wants of the line of a value `n`, in the words of the obligation. -/
def IsDecimalLine (l : List Char) (n : Nat) : Prop :=
  l ≠ [] ∧ l.foldl (fun n c => 10 * n + (c.toNat - 48)) 0 = n ∧ (∀ c ∈ l, 48 ≤ c.toNat ∧ c.toNat ≤ 57) ∧
    (l.head? = some '0' → l = ['0'])

/-- Read back by their character codes, the characters of a numeral give the fold of its digits. -/
theorem IsNumeral.isDecimalLine {ds : List Nat} {n : Nat} (h : IsNumeral ds n) :
    IsDecimalLine (ds.map digitChar) n := by
  refine ⟨?nonempty, ?value, ?range, ?noLeadingZero⟩
  case nonempty => simpa using h.nonempty
  case value =>
    rw [List.foldl_map, ← h.value]
    refine List.foldl_ext _ _ _ fun m d hd => ?_
    rw [digitChar_toNat (h.digit d hd), Nat.add_sub_cancel_left]
  case range =>
    intro c hc
    obtain ⟨d, hd, rfl⟩ := List.mem_map.mp hc
    have hlt := h.digit d hd
    rw [digitChar_toNat hlt]
    omega
  case noLeadingZero =>
    intro hhead
    rw [List.head?_map, Option.map_eq_some_iff] at hhead
    obtain ⟨d, hd, hchar⟩ := hhead
    have hzero : d = 0 := digitChar_eq_zero (h.digit d (List.mem_of_mem_head? hd)) hchar
    rw [h.noLeadingZero (hzero ▸ hd)]
    rfl

theorem decimal_isDecimalLine (v : Byte) : IsDecimalLine (decimal v) v.toNat := by
  obtain ⟨ds, hdecimal, hds⟩ := decimal_eq_map_digitChar v
  exact hdecimal ▸ hds.isDecimalLine

/-! ### The output -/

/-- The rendering is the numerals of the values in order, each followed by a newline. -/
theorem renderOut_eq_flatten (out : List Byte) :
    renderOut out = ((out.map decimal).map (· ++ ['\n'])).flatten := by
  rw [renderOut, List.flatMap_def, List.map_map]
  rfl

/-- Settles O47: the lines are the numerals that `renderOut` joins (`renderOut_eq_flatten`), and each is the decimal line
of its value (`decimal_isDecimalLine`). -/
theorem outputRendersAsDecimalLines : Obligations.OutputRendersAsDecimalLines := by
  intro out
  refine ⟨out.map decimal, renderOut_eq_flatten out, List.length_map _, ?eachLine⟩
  case eachLine =>
    intro k v l hv hl
    rw [List.getElem?_map, hv, Option.map_some, Option.some.injEq] at hl
    exact hl ▸ decimal_isDecimalLine v

end Sys2Proof.Machine
end

section
/-! PROOFS. The sequencer's jump contract, and that no handler uses it (spec/45_control_transfer.md rule R126). -/

namespace Sys2Proof.Machine

/-- A Running state whose pc was set to 256 faults at the fetch: setting the pc checks nothing, the next step does. -/
theorem step_setPc_top {s : State} (hrun : s.runState = .running) :
    step (s.setPc 256#9) = .next ((s.setPc 256#9).takeFault ⟨.outOfBounds, some 256⟩) :=
  step_of_fetch_error hrun (fetch_at_top rfl)

/-- A handler that raises a fault or completes does not ask for a jump. -/
theorem FaultsOrCompletes.ne_jump {s : State} {r : Except Raised HandlerEnd} (h : FaultsOrCompletes s r)
    (target : PcWord) (s' : State) : r ≠ .ok (.jump target s') := by
  obtain ⟨e, rfl⟩ | ⟨t, rfl, -, -⟩ := h <;> nofun

/-- Settles O28: the sequencer's jump arm sets the pc alone (`sequence_jump`), a pc of 256 is found out by the next fetch
(`step_setPc_top`), and every handler faults or completes (`FaultsOrCompletes.ne_jump`), but HLT's, which halts. -/
theorem jumpContractUnusedByHandlers : Obligations.JumpContractUnusedByHandlers := by
  refine ⟨sequence_jump, ?faultsAtTop, ?noHandlerJumps⟩
  case faultsAtTop =>
    intro len s s' hrun
    exact ⟨_, step_setPc_top hrun, rfl⟩
  case noHandlerJumps =>
    intro a b s s' target
    exact ⟨(handlerLdi_faultsOrCompletes a b s).ne_jump target s', (handlerPrn_faultsOrCompletes a s).ne_jump target s',
      nofun, (handlerMul_faultsOrCompletes a b s).ne_jump target s',
      (handlerPush_faultsOrCompletes a s).ne_jump target s', (handlerPop_faultsOrCompletes a s).ne_jump target s'⟩

end Sys2Proof.Machine
end

section
/-! PROOFS. What can be raised in a step (spec/60_exceptions.md rule R134), and that a step which ends Faulted has taken
the fault in the state it began in (rule R136). -/

namespace Sys2Proof.Machine

/-! ### What can be raised -/

/-- A fault that the engine may raise: of cause 1, 2 or 3, with the info that rule R130 gives each of these. -/
def Raised.IsEngineFault (e : Raised) : Prop :=
  e.cause ≠ .unsupportedALUOperation ∧ ∃ n, e.info = some n

/-- `r` raises nothing else. -/
def RaisesEngineFaults {α : Type} (r : Except Raised α) : Prop :=
  ∀ e, r = .error e → e.IsEngineFault

theorem raisesEngineFaults_ok {α : Type} (a : α) : RaisesEngineFaults (.ok a) := nofun

theorem raisesEngineFaults_error {α : Type} {e : Raised} (h : e.IsEngineFault) :
    RaisesEngineFaults (.error e : Except Raised α) := by
  rintro _ ⟨⟩
  exact h

/-- A sequence raises what its first part raises, or what the rest does. -/
theorem RaisesEngineFaults.bind {α β : Type} {r : Except Raised α} {f : α → Except Raised β}
    (hr : RaisesEngineFaults r) (hf : ∀ a, RaisesEngineFaults (f a)) : RaisesEngineFaults (r >>= f) := by
  cases r with
  | ok a => exact hf a
  | error e => exact raisesEngineFaults_error (hr e rfl)

/-! ### What each part of a step can raise -/

theorem raisesEngineFaults_regOperand (b : Byte) : RaisesEngineFaults (regOperand b) := by
  obtain ⟨h, hok⟩ | ⟨-, herr⟩ := regOperand_cases b
  · exact hok ▸ raisesEngineFaults_ok _
  · exact herr ▸ raisesEngineFaults_error ⟨nofun, _, rfl⟩

theorem raisesEngineFaults_pushAddr (s : State) : RaisesEngineFaults (pushAddr s) := by
  by_cases hsp : s.reg spIdx = 0#8
  · exact pushAddr_error hsp ▸ raisesEngineFaults_error ⟨nofun, _, rfl⟩
  · exact pushAddr_ok hsp ▸ raisesEngineFaults_ok _

theorem raisesEngineFaults_popAddr (s : State) : RaisesEngineFaults (popAddr s) := by
  rcases Nat.lt_or_ge (s.reg spIdx).toNat 0xF4 with hsp | hsp
  · exact popAddr_ok hsp ▸ raisesEngineFaults_ok _
  · exact popAddr_error hsp ▸ raisesEngineFaults_error ⟨nofun, _, rfl⟩

theorem raisesEngineFaults_memRead (addr : Int) (s : State) : RaisesEngineFaults (memRead addr s) := by
  rw [memRead_eq]
  split
  · exact raisesEngineFaults_ok _
  · exact raisesEngineFaults_error ⟨nofun, _, rfl⟩

theorem raisesEngineFaults_memWrite (addr : Int) (v : Nat) (s : State) : RaisesEngineFaults (memWrite addr v s) := by
  rw [memWrite]
  split
  · exact raisesEngineFaults_error ⟨nofun, _, rfl⟩
  · exact raisesEngineFaults_ok _

/-- The one operation that a handler asks the ALU for is supported, so the ALU raises nothing but InvalidRegister. -/
theorem raisesEngineFaults_alu_mul (a b : Byte) (s : State) : RaisesEngineFaults (alu .mul a b s) :=
  (raisesEngineFaults_regOperand a).bind fun _ => (raisesEngineFaults_regOperand b).bind fun _ =>
    raisesEngineFaults_ok _

theorem raisesEngineFaults_handlerLdi (a b : Byte) (s : State) : RaisesEngineFaults (handlerLdi a b s) :=
  (raisesEngineFaults_regOperand a).bind fun _ => raisesEngineFaults_ok _

theorem raisesEngineFaults_handlerPrn (a : Byte) (s : State) : RaisesEngineFaults (handlerPrn a s) :=
  (raisesEngineFaults_regOperand a).bind fun _ => raisesEngineFaults_ok _

theorem raisesEngineFaults_handlerMul (a b : Byte) (s : State) : RaisesEngineFaults (handlerMul a b s) :=
  (raisesEngineFaults_alu_mul a b s).bind fun _ => raisesEngineFaults_ok _

theorem raisesEngineFaults_handlerPush (a : Byte) (s : State) : RaisesEngineFaults (handlerPush a s) :=
  (raisesEngineFaults_regOperand a).bind fun _ => (raisesEngineFaults_pushAddr s).bind fun _ =>
    (raisesEngineFaults_memWrite _ _ _).bind fun _ => raisesEngineFaults_ok _

theorem raisesEngineFaults_handlerPop (a : Byte) (s : State) : RaisesEngineFaults (handlerPop a s) :=
  (raisesEngineFaults_regOperand a).bind fun _ => (raisesEngineFaults_popAddr s).bind fun _ =>
    (raisesEngineFaults_memRead _ _).bind fun _ => raisesEngineFaults_ok _

theorem raisesEngineFaults_fetch (s : State) : RaisesEngineFaults (fetch s) := by
  intro e he
  obtain ⟨-, rfl⟩ | ⟨-, -, rfl⟩ | ⟨-, -, rfl⟩ := fetch_error he <;> exact ⟨nofun, _, rfl⟩

/-! ### How a step ends Faulted -/

/-- `t` is `s` with a fault of cause 1, 2 or 3 taken. -/
def TakesEngineFault (s t : State) : Prop := ∃ e : Raised, e.IsEngineFault ∧ t = s.takeFault e

/-- A handler that completes leaves the run state, so only a fault that the handler raised makes a Running engine
Faulted. -/
theorem FaultsOrCompletes.takesEngineFault {s t : State} {r : Except Raised HandlerEnd} {len : Nat}
    (h : FaultsOrCompletes s r) (hr : RaisesEngineFaults r) (hs : s.runState = .running)
    (hseq : Machine.sequence len s r = t) (ht : t.runState = .faulted) : TakesEngineFault s t := by
  subst hseq
  obtain ⟨e, rfl⟩ | ⟨s', rfl, hrun, -⟩ := h
  · exact ⟨e, hr e rfl, rfl⟩
  · rw [sequence_next, setPc_runState, hrun, hs] at ht
    cases ht

theorem exec_takesEngineFault {i : Instr} {s t : State} (hs : s.runState = .running) (h : exec i s = .next t)
    (ht : t.runState = .faulted) : TakesEngineFault s t := by
  cases i with
  | hlt => cases h; cases ht
  | ldi a b =>
    exact (handlerLdi_faultsOrCompletes a b s).takesEngineFault (raisesEngineFaults_handlerLdi a b s) hs
      (Host.Outcome.next.inj h) ht
  | prn a =>
    exact (handlerPrn_faultsOrCompletes a s).takesEngineFault (raisesEngineFaults_handlerPrn a s) hs
      (Host.Outcome.next.inj h) ht
  | mul a b =>
    exact (handlerMul_faultsOrCompletes a b s).takesEngineFault (raisesEngineFaults_handlerMul a b s) hs
      (Host.Outcome.next.inj h) ht
  | push a =>
    exact (handlerPush_faultsOrCompletes a s).takesEngineFault (raisesEngineFaults_handlerPush a s) hs
      (Host.Outcome.next.inj h) ht
  | pop a =>
    exact (handlerPop_faultsOrCompletes a s).takesEngineFault (raisesEngineFaults_handlerPop a s) hs
      (Host.Outcome.next.inj h) ht

/-- Whether the fetch or the handler raised it, the fault is taken in the state the step began in. -/
theorem step_takesEngineFault {s t : State} (h : step s = .next t) (ht : t.runState = .faulted) :
    TakesEngineFault s t := by
  obtain ⟨hrun, ⟨e, hfetch, rfl⟩ | ⟨i, -, hexec⟩⟩ := step_next h
  · exact ⟨e, raisesEngineFaults_fetch s e hfetch, rfl⟩
  · exact exec_takesEngineFault hrun hexec ht

/-- Settles O21: the step took a fault in its first state (`step_takesEngineFault`), which changes the run state and the
record alone; no step is defined in a Faulted state (`step_faulted`). -/
theorem faultsArePrecise : Obligations.FaultsArePrecise := by
  intro s t hstep hfaulted
  obtain ⟨e, -, rfl⟩ := step_takesEngineFault hstep hfaulted
  exact ⟨⟨e.cause, e.info, rfl⟩, step_faulted hfaulted⟩

/-- The causes other than 4 are numbered 1, 2 and 3 (rule R130). -/
theorem code_mem_of_ne_unsupportedALUOperation {c : Cause} (h : c ≠ .unsupportedALUOperation) :
    c.code ∈ [1#3, 2#3, 3#3] := by
  cases c with
  | unsupportedALUOperation => exact absurd rfl h
  | invalidOpcode | outOfBounds | invalidRegister => decide

/-- Settles O22: the record is that of the fault taken, which has a cause other than 4 and an info
(`step_takesEngineFault`). -/
theorem stepNeverRaisesUnsupportedAlu : Obligations.StepNeverRaisesUnsupportedAlu := by
  intro s t hstep hfaulted
  obtain ⟨e, ⟨hcause, n, hinfo⟩, rfl⟩ := step_takesEngineFault hstep hfaulted
  exact ⟨_, n, takeFault_fault s e, hcause, hinfo, code_mem_of_ne_unsupportedALUOperation hcause⟩

end Sys2Proof.Machine
end

section
/-! PROOFS. A register operand outside 0 .. 7 raises InvalidRegister before anything is written (spec/60_exceptions.md
rule R132). -/

namespace Sys2Proof.Machine

theorem exec_ldi_invalid {a : Byte} (h : 8 ≤ a.toNat) (b : Byte) (s : State) :
    exec (.ldi a b) s = .next (s.takeFault ⟨.invalidRegister, some (a.toNat : Int)⟩) := by
  rw [exec_ldi, handlerLdi_error h, sequence_error]

theorem exec_prn_invalid {a : Byte} (h : 8 ≤ a.toNat) (s : State) :
    exec (.prn a) s = .next (s.takeFault ⟨.invalidRegister, some (a.toNat : Int)⟩) := by
  rw [exec_prn, handlerPrn_error h, sequence_error]

theorem exec_push_invalid {a : Byte} (h : 8 ≤ a.toNat) (s : State) :
    exec (.push a) s = .next (s.takeFault ⟨.invalidRegister, some (a.toNat : Int)⟩) := by
  rw [exec_push, handlerPush_error h, sequence_error]

theorem exec_pop_invalid {a : Byte} (h : 8 ≤ a.toNat) (s : State) :
    exec (.pop a) s = .next (s.takeFault ⟨.invalidRegister, some (a.toNat : Int)⟩) := by
  rw [exec_pop, handlerPop_error h, sequence_error]

theorem exec_mul_invalid_a {a : Byte} (h : 8 ≤ a.toNat) (b : Byte) (s : State) :
    exec (.mul a b) s = .next (s.takeFault ⟨.invalidRegister, some (a.toNat : Int)⟩) := by
  rw [exec_mul, handlerMul_error_a h, sequence_error]

theorem exec_mul_invalid_b {a b : Byte} (ha : a.toNat < 8) (hb : 8 ≤ b.toNat) (s : State) :
    exec (.mul a b) s = .next (s.takeFault ⟨.invalidRegister, some (b.toNat : Int)⟩) := by
  rw [exec_mul, handlerMul_error_b ha hb, sequence_error]

/-- The fault record of `t` is that of `s`, or one of OutOfBounds. -/
def KeepsRecordOrOutOfBounds (s t : State) : Prop :=
  t.fault = s.fault ∨ ∃ f, t.fault = some f ∧ f.cause = .outOfBounds

theorem exec_push_record {a : Byte} (h : a.toNat < 8) {s t : State} (ht : exec (.push a) s = .next t) :
    KeepsRecordOrOutOfBounds s t := by
  by_cases hsp : s.reg spIdx = 0#8
  · cases (exec_push_empty h hsp).symm.trans ht
    exact .inr ⟨_, rfl, rfl⟩
  · cases (exec_push_ok h hsp).symm.trans ht
    exact .inl rfl

theorem exec_pop_record {a : Byte} (h : a.toNat < 8) {s t : State} (ht : exec (.pop a) s = .next t) :
    KeepsRecordOrOutOfBounds s t := by
  rcases Nat.lt_or_ge (s.reg spIdx).toNat 0xF4 with hsp | hsp
  · cases (exec_pop_ok h hsp).symm.trans ht
    exact .inl rfl
  · cases (exec_pop_empty h hsp).symm.trans ht
    exact .inr ⟨_, rfl, rfl⟩

/-- Settles O18: an invalid operand is a fault taken in the state the instruction began in; with a valid one PUSH and
POP meet only their stack bound, and the use of register 7 that it guards has no register check. -/
theorem invalidRegisterFaults : Obligations.InvalidRegisterFaults := by
  intro r s
  refine ⟨?invalid, ?valid⟩
  case invalid =>
    intro h
    exact ⟨fun v => exec_ldi_invalid h v s, exec_prn_invalid h s, exec_push_invalid h s, exec_pop_invalid h s,
      fun rb => exec_mul_invalid_a h rb s, fun ra hra => exec_mul_invalid_b hra h s⟩
  case valid =>
    intro h t ht
    exact ht.elim (exec_push_record h) (exec_pop_record h)

end Sys2Proof.Machine
end

section
/-! PROOFS. The decoder and the encoder agree (spec/30_encoding.md), and the step runs what the bytes at the pc decode
to (spec/40_engine.md rules R71, R74). -/

namespace Sys2Proof

/-! ### Decode after encode -/

/-- The encoding of an instruction is decoded to it, whatever bytes follow. -/
@[simp] theorem decode_encode_append (i : Instr) (rest : List Byte) : decode (encode i ++ rest) = .ok (i, rest) := by
  cases i <;> rfl

/-! ### Encode after decode -/

/-- An entry makes the instructions whose encoding begins with `op`, and the operand bytes it is given are the operands
that the encoding writes out, in the same order. -/
def Entry.EncodesAs (op : Byte) : Entry → Prop
  | .f0 i => encode i = [op]
  | .f1 make => ∀ a, encode (make a) = [op, a]
  | .f2 make => ∀ a b, encode (make a b) = [op, a, b]

/-- Every row of the dispatch table makes instructions of its own opcode (rule R54). -/
theorem encodesAs_of_dispatch {op : Byte} {e : Entry} (h : (dispatch op).map Row.entry = some e) : e.EncodesAs op := by
  obtain rfl | rfl | rfl | rfl | rfl | rfl | ⟨hnone, -⟩ := dispatch_cases op
  case inr.inr.inr.inr.inr.inr => rw [hnone] at h; cases h
  case inr.inr.inl => cases h; rfl
  case inr.inl | inr.inr.inr.inr.inl | inr.inr.inr.inr.inr.inl => cases h; exact fun _ => rfl
  case inl | inr.inr.inr.inl => cases h; exact fun _ _ => rfl

/-- Bytes that decode to an instruction begin with its encoding, and the rest of them is what the decoder leaves. -/
theorem eq_encode_append_of_decode {bytes rest : List Byte} {i : Instr} (h : decode bytes = .ok (i, rest)) :
    bytes = encode i ++ rest := by
  cases bytes with
  | nil => cases h
  | cons op tail =>
    cases hd : (dispatch op).map Row.entry with
    | none => simp only [decode, hd] at h; cases h
    | some e =>
      have henc := encodesAs_of_dispatch hd
      cases e with
      | f0 j =>
        simp only [decode, hd] at h
        cases h
        rw [henc]; rfl
      | f1 make =>
        match tail with
        | [] => simp only [decode, hd] at h; cases h
        | a :: tail =>
          simp only [decode, hd] at h
          cases h
          rw [henc a]; rfl
      | f2 make =>
        match tail with
        | [] => simp only [decode, hd] at h; cases h
        | [_] => simp only [decode, hd] at h; cases h
        | a :: b :: tail =>
          simp only [decode, hd] at h
          cases h
          rw [henc a b]; rfl

/-- Settles O2: an encoding is decoded to its instruction (`decode_encode_append`), and the decoder accepts nothing else
(`eq_encode_append_of_decode`). -/
theorem decodeExactlyTheEncodings : Obligations.DecodeExactlyTheEncodings := by
  intro bytes i rest
  refine ⟨eq_encode_append_of_decode, ?encoded⟩
  case encoded =>
    rintro rfl
    exact decode_encode_append i rest

/-- Settles O1: the six words are encodings (`decode_encode_append`); the two refused bytes have no table entry. -/
theorem sourceWordsDecode : Obligations.SourceWordsDecode :=
  ⟨decode_encode_append (.ldi 3#8 255#8) [], decode_encode_append (.prn 5#8) [], decode_encode_append .hlt [],
    decode_encode_append (.mul 0#8 7#8) [], decode_encode_append (.push 7#8) [],
    decode_encode_append (.pop 9#8) [0x01#8], rfl, rfl⟩

/-! ### Numbered instruction words -/

/-- The number of a byte sequence in the opcode table's numbering, first byte least significant. -/
def wordOf (bs : List Byte) : Nat := bs.foldr (fun b n => b.toNat + 256 * n) 0

theorem wordOf_cons (b : Byte) (bs : List Byte) : wordOf (b :: bs) = b.toNat + 256 * wordOf bs := rfl

/-- The number of a byte sequence has 8 bits for each byte. -/
theorem wordOf_lt (bs : List Byte) : wordOf bs < 2 ^ (8 * bs.length) := by
  induction bs with
  | nil => exact Nat.one_pos
  | cons b bs ih =>
    have hb := b.isLt
    rw [wordOf_cons, List.length_cons, Nat.mul_succ, Nat.pow_add]
    omega

/-- A byte is read back from a number of which it is bits 7 to 0. -/
theorem ofNat_eq_of_mod {n : Nat} {b : Byte} (h : n % 256 = b.toNat) : BitVec.ofNat 8 n = b :=
  BitVec.eq_of_toNat_eq ((BitVec.toNat_ofNat n 8).trans h)

/-- The table's bytes of a number of at most `nbits` bits are its three lowest bytes. -/
theorem tableBytes_eq {nbits w : Nat} {a b c : Byte} (hlt : w < 2 ^ nbits)
    (hw : w = a.toNat + 256 * (b.toNat + 256 * c.toNat)) : tableBytes nbits w = [a, b, c] := by
  have ha := a.isLt
  have hb := b.isLt
  have hc := c.isLt
  rw [tableBytes, Nat.mod_eq_of_lt hlt, ofNat_eq_of_mod (b := a) (by omega), ofNat_eq_of_mod (b := b) (by omega),
    ofNat_eq_of_mod (b := c) (by omega)]

/-- The table's bytes of the number of at most three bytes begin with these; the others are 0. -/
theorem tableBytes_wordOf {bs : List Byte} (h : bs.length ≤ 3) :
    ∃ rest, tableBytes (8 * bs.length) (wordOf bs) = bs ++ rest := by
  match bs with
  | [] => exact ⟨_, rfl⟩
  | [a] => exact ⟨[0#8, 0#8], tableBytes_eq (wordOf_lt [a]) (by simp [wordOf])⟩
  | [a, b] => exact ⟨[0#8], tableBytes_eq (wordOf_lt [a, b]) (by simp [wordOf])⟩
  | [a, b, c] => exact ⟨[], tableBytes_eq (wordOf_lt [a, b, c]) (by simp [wordOf])⟩

/-- `decodeTableWord` reads an instruction exactly where the decoder reads it from the word's bytes. -/
theorem decodeTableWord_eq_some_iff {nbits w : Nat} {i : Instr} :
    decodeTableWord nbits w = some i ↔ ∃ rest, decode (tableBytes nbits w) = .ok (i, rest) := by
  cases h : decode (tableBytes nbits w) <;> simp [decodeTableWord, h, Prod.ext_iff]

theorem length_le_three (i : Instr) : i.length ≤ 3 := by
  cases i <;> simp [Instr.length]

/-- Settles O3: the table's bytes of an encoding's number begin with the encoding (`tableBytes_wordOf`), which is
decoded whatever follows it (`decode_encode_append`). -/
theorem tableWordReadsEncoding : Obligations.TableWordReadsEncoding := by
  intro i
  obtain ⟨rest, hbytes⟩ := tableBytes_wordOf ((encode_length i).trans_le (length_le_three i))
  rw [encode_length] at hbytes
  exact decodeTableWord_eq_some_iff.mpr ⟨rest, by rw [← wordOf, hbytes, decode_encode_append]⟩

end Sys2Proof

namespace Sys2Proof.Machine

/-! ### The step runs what is decoded -/

/-- Settles O4: the fetch answers the decoded instruction (`fetch_of_decode`), and a Running engine executes it. -/
theorem stepRunsDecodedInstruction : Obligations.StepRunsDecodedInstruction :=
  fun _ _ _ _ hrun hn hdec => step_of_fetch_ok hrun (fetch_of_decode hn hdec)

/-- The three bytes of a word placed at the pc are the bytes from the pc on. -/
theorem bytesAt_withFetchWord {s : State} (hpc : s.pc.toNat ≤ 253) (nbits w : Nat) :
    (s.withFetchWord nbits w).bytesAt s.pc.toNat 3 = tableBytes nbits w := by
  have hlen : (tableBytes nbits w).length = 3 := rfl
  have hread (k : Nat) : (s.withFetchWord nbits w).mem.read (s.pc.toNat + k) =
      (tableBytes nbits w)[k]?.getD (s.mem.read (s.pc.toNat + k)) := by
    simp only [State.withFetchWord]
    rw [read_placeBytes _ _ _ (by omega), if_pos (Nat.le_add_right _ _), Nat.add_sub_cancel_left]
  exact congrArg₂ _ (hread 0) (congrArg₂ _ (hread 1) (congrArg₂ _ (hread 2) rfl))

/-- Settles O5: the bytes placed are those that are fetched (`bytesAt_withFetchWord`), and the engine is Running. -/
theorem placedWordIsNextRun : Obligations.PlacedWordIsNextRun := by
  intro s nbits w i hpc hword
  obtain ⟨rest, hdec⟩ := decodeTableWord_eq_some_iff.mp hword
  rw [← bytesAt_withFetchWord hpc] at hdec
  exact stepRunsDecodedInstruction _ 3 i rest rfl (by exact Nat.add_le_add_right hpc 3) hdec

end Sys2Proof.Machine
end

section
/-! PROOFS. Everything that executing an instruction can do: the first check that fails, and what is left where none
does (spec/40_engine.md sections 2 and 3). The whole-machine rules are read off this. -/

namespace Sys2Proof.Machine

/-! ### The checks -/

/-- The fault of a register operand outside 0 .. 7 (rule R14). -/
def regCheck (b : Byte) : Option Raised :=
  if b.toNat < 8 then none else some ⟨.invalidRegister, some (b.toNat : Int)⟩

/-- The fault of PUSH's stack bound (rule R108). -/
def pushCheck (s : State) : Option Raised :=
  if s.reg spIdx = 0#8 then some ⟨.outOfBounds, some (-1)⟩ else none

/-- The fault of POP's stack bound (rule R108). -/
def popCheck (s : State) : Option Raised :=
  if (s.reg spIdx).toNat < 0xF4 then none else some ⟨.outOfBounds, some ((s.reg spIdx).toNat : Int)⟩

/-- The fault of the first check of an instruction's handler that fails, in the order of rule R78. -/
def failingCheck (s : State) : Instr → Option Raised
  | .ldi r _ => regCheck r
  | .prn r => regCheck r
  | .hlt => none
  | .mul ra rb => (regCheck ra).or (regCheck rb)
  | .push r => (regCheck r).or (pushCheck s)
  | .pop r => (regCheck r).or (popCheck s)

@[simp] theorem regCheck_eq_none_iff {b : Byte} : regCheck b = none ↔ b.toNat < 8 := by
  simp [regCheck]

@[simp] theorem regCheck_eq_some_iff {b : Byte} {e : Raised} :
    regCheck b = some e ↔ 8 ≤ b.toNat ∧ e = ⟨.invalidRegister, some (b.toNat : Int)⟩ := by
  simp [regCheck, eq_comm]

@[simp] theorem pushCheck_eq_none_iff {s : State} : pushCheck s = none ↔ s.reg spIdx ≠ 0#8 := by
  simp [pushCheck]

@[simp] theorem pushCheck_eq_some_iff {s : State} {e : Raised} :
    pushCheck s = some e ↔ s.reg spIdx = 0#8 ∧ e = ⟨.outOfBounds, some (-1)⟩ := by
  simp [pushCheck, eq_comm]

@[simp] theorem popCheck_eq_none_iff {s : State} : popCheck s = none ↔ (s.reg spIdx).toNat < 0xF4 := by
  simp [popCheck]

@[simp] theorem popCheck_eq_some_iff {s : State} {e : Raised} :
    popCheck s = some e ↔
      0xF4 ≤ (s.reg spIdx).toNat ∧ e = ⟨.outOfBounds, some ((s.reg spIdx).toNat : Int)⟩ := by
  simp [popCheck, eq_comm]

/-! ### The two ends of an execution -/

/-- A check that fails is the fault taken. -/
theorem exec_of_failingCheck {i : Instr} {s : State} {e : Raised} (h : failingCheck s i = some e) :
    exec i s = .next (s.takeFault e) := by
  cases i with
  | hlt => cases h
  | ldi r v =>
    obtain ⟨hr, rfl⟩ := regCheck_eq_some_iff.mp h
    exact exec_ldi_invalid hr v s
  | prn r =>
    obtain ⟨hr, rfl⟩ := regCheck_eq_some_iff.mp h
    exact exec_prn_invalid hr s
  | mul ra rb =>
    simp only [failingCheck, Option.or_eq_some_iff, regCheck_eq_some_iff, regCheck_eq_none_iff] at h
    obtain ⟨ha, rfl⟩ | ⟨ha, hb, rfl⟩ := h
    · exact exec_mul_invalid_a ha rb s
    · exact exec_mul_invalid_b ha hb s
  | push r =>
    simp only [failingCheck, Option.or_eq_some_iff, regCheck_eq_some_iff, regCheck_eq_none_iff,
      pushCheck_eq_some_iff] at h
    obtain ⟨hr, rfl⟩ | ⟨hr, hsp, rfl⟩ := h
    · exact exec_push_invalid hr s
    · exact exec_push_empty hr hsp
  | pop r =>
    simp only [failingCheck, Option.or_eq_some_iff, regCheck_eq_some_iff, regCheck_eq_none_iff,
      popCheck_eq_some_iff] at h
    obtain ⟨hr, rfl⟩ | ⟨hr, hsp, rfl⟩ := h
    · exact exec_pop_invalid hr s
    · exact exec_pop_empty hr hsp

/-- PRN where its check holds: the value is emitted, and the pc advanced by 2. -/
theorem exec_prn_ok {a : Byte} (h : a.toNat < 8) (s : State) :
    exec (.prn a) s = .next ((s.emit (s.reg ⟨a.toNat, h⟩)).setPc (s.pc + 2#9)) := by
  rw [exec_prn, handlerPrn_ok h, sequence_next]

/-- `t` is what an instruction leaves of `s` where all its checks hold. -/
inductive Completes (s : State) : Instr → State → Prop where
  | ldi {r v : Byte} (h : r.toNat < 8) :
    Completes s (.ldi r v) ((s.setReg ⟨r.toNat, h⟩ v.toNat).setPc (s.pc + 3#9))
  | prn {r : Byte} (h : r.toNat < 8) :
    Completes s (.prn r) ((s.emit (s.reg ⟨r.toNat, h⟩)).setPc (s.pc + 2#9))
  | hlt : Completes s .hlt (s.setRunState .halted)
  | mul {ra rb : Byte} (ha : ra.toNat < 8) (hb : rb.toNat < 8) :
    Completes s (.mul ra rb) ((s.setReg ⟨ra.toNat, ha⟩
      ((s.reg ⟨ra.toNat, ha⟩).toNat * (s.reg ⟨rb.toNat, hb⟩).toNat)).setPc (s.pc + 3#9))
  | push {r : Byte} (h : r.toNat < 8) (hsp : s.reg spIdx ≠ 0#8) :
    Completes s (.push r) (((s.setReg spIdx ((s.reg spIdx).toNat - 1)).setMem (s.mem.write ((s.reg spIdx).toNat - 1)
      ((s.setReg spIdx ((s.reg spIdx).toNat - 1)).reg ⟨r.toNat, h⟩))).setPc (s.pc + 2#9))
  | pop {r : Byte} (h : r.toNat < 8) (hsp : (s.reg spIdx).toNat < 0xF4) :
    Completes s (.pop r) (((s.setReg ⟨r.toNat, h⟩ (s.mem.read (s.reg spIdx).toNat).toNat).setReg spIdx
      (((s.setReg ⟨r.toNat, h⟩ (s.mem.read (s.reg spIdx).toNat).toNat).reg spIdx).toNat + 1)).setPc (s.pc + 2#9))

theorem Completes.exec {i : Instr} {s t : State} (h : Completes s i t) : exec i s = .next t := by
  cases h with
  | ldi hr => exact exec_ldi_ok hr _ s
  | prn hr => exact exec_prn_ok hr s
  | hlt => exact exec_hlt s
  | mul ha hb => exact exec_mul_ok ha hb s
  | push hr hsp => exact exec_push_ok hr hsp
  | pop hr hsp => exact exec_pop_ok hr hsp

/-- Where no check fails the instruction completes. -/
theorem exists_completes {i : Instr} {s : State} (h : failingCheck s i = none) : ∃ t, Completes s i t := by
  cases i with
  | ldi r v => exact ⟨_, .ldi (regCheck_eq_none_iff.mp h)⟩
  | prn r => exact ⟨_, .prn (regCheck_eq_none_iff.mp h)⟩
  | hlt => exact ⟨_, .hlt⟩
  | mul ra rb =>
    obtain ⟨ha, hb⟩ := Option.or_eq_none_iff.mp h
    exact ⟨_, .mul (regCheck_eq_none_iff.mp ha) (regCheck_eq_none_iff.mp hb)⟩
  | push r =>
    obtain ⟨hr, hsp⟩ := Option.or_eq_none_iff.mp h
    exact ⟨_, .push (regCheck_eq_none_iff.mp hr) (pushCheck_eq_none_iff.mp hsp)⟩
  | pop r =>
    obtain ⟨hr, hsp⟩ := Option.or_eq_none_iff.mp h
    exact ⟨_, .pop (regCheck_eq_none_iff.mp hr) (popCheck_eq_none_iff.mp hsp)⟩

/-- Everything that executing an instruction can do: take the fault of the first check that fails, or complete. -/
theorem exec_cases {i : Instr} {s t : State} (h : exec i s = .next t) :
    (∃ e, failingCheck s i = some e ∧ t = s.takeFault e) ∨ (failingCheck s i = none ∧ Completes s i t) := by
  cases hc : failingCheck s i with
  | some e =>
    cases (exec_of_failingCheck hc).symm.trans h
    exact .inl ⟨e, rfl, rfl⟩
  | none =>
    obtain ⟨t', ht'⟩ := exists_completes hc
    cases ht'.exec.symm.trans h
    exact .inr ⟨rfl, ht'⟩

/-! ### What a completed instruction leaves -/

theorem Completes.fault {i : Instr} {s t : State} (h : Completes s i t) : t.fault = s.fault := by
  cases h <;> rfl

theorem Completes.runState {i : Instr} {s t : State} (h : Completes s i t) :
    t.runState = if i = .hlt then .halted else s.runState := by
  cases h <;> rfl

/-- The pc stays at HLT, and is advanced by the length of any other instruction. -/
theorem Completes.pc {i : Instr} {s t : State} (h : Completes s i t) :
    t.pc = if i = .hlt then s.pc else s.pc + BitVec.ofNat 9 i.length := by
  cases h <;> rfl

/-- Memory is as before, or PUSH has written the cell whose address it computes. -/
theorem Completes.mem {i : Instr} {s t : State} (h : Completes s i t) :
    t.mem = s.mem ∨ ∃ r v, i = .push r ∧ s.reg spIdx ≠ 0#8 ∧ t.mem = s.mem.write ((s.reg spIdx).toNat - 1) v := by
  cases h with
  | push hr hsp => exact .inr ⟨_, _, rfl, hsp, rfl⟩
  | ldi | prn | hlt | mul | pop => exact .inl rfl

/-- The output is as before, or PRN has appended its register. -/
theorem Completes.out {i : Instr} {s t : State} (h : Completes s i t) :
    t.out = s.out ∨ ∃ (r : Byte) (hr : r.toNat < 8), i = .prn r ∧ t.out = s.out ++ [s.reg ⟨r.toNat, hr⟩] := by
  cases h with
  | prn hr => exact .inr ⟨_, hr, rfl, rfl⟩
  | ldi | hlt | mul | push | pop => exact .inl rfl

/-! ### Completion and faults of every instruction -/

/-- No check fails exactly where the register operands are valid and the instruction's stack bound, if it has one, is
met. -/
theorem failingCheck_eq_none_iff {i : Instr} {s : State} :
    failingCheck s i = none ↔ i.wellFormed = true ∧ (∀ r, i = .push r → s.reg spIdx ≠ 0#8) ∧
      ∀ r, i = .pop r → (s.reg spIdx).toNat < 0xF4 := by
  cases i <;> simp [failingCheck, Instr.wellFormed]

/-- Settles O17: no check fails (`failingCheck_eq_none_iff`), so the instruction completes. -/
theorem wellFormedInstructionsComplete : Obligations.WellFormedInstructionsComplete := by
  intro i s hwf hpush hpop
  obtain ⟨t, ht⟩ := exists_completes (failingCheck_eq_none_iff.mpr ⟨hwf, hpush, hpop⟩)
  exact ⟨t, ht.exec, ht.fault, ht.runState⟩

/-- The register checks precede the stack bounds: a failing check is one of a register exactly where a register operand
is invalid. -/
theorem cause_of_failingCheck {i : Instr} {s : State} {e : Raised} (h : failingCheck s i = some e) :
    e.cause = .invalidRegister ↔ i.wellFormed = false := by
  cases i with
  | hlt => cases h
  | ldi r v | prn r =>
    obtain ⟨hr, rfl⟩ := regCheck_eq_some_iff.mp h
    simp [Instr.wellFormed, hr]
  | mul ra rb =>
    obtain ha | ⟨-, hb⟩ := Option.or_eq_some_iff.mp h
    · obtain ⟨ha, rfl⟩ := regCheck_eq_some_iff.mp ha
      simp [Instr.wellFormed]
      omega
    · obtain ⟨hb, rfl⟩ := regCheck_eq_some_iff.mp hb
      simp [Instr.wellFormed]
      omega
  | push r | pop r =>
    obtain hr | ⟨hr, hsp⟩ := Option.or_eq_some_iff.mp h
    · obtain ⟨hinvalid, rfl⟩ := regCheck_eq_some_iff.mp hr
      simpa [Instr.wellFormed] using hinvalid
    · have hvalid := regCheck_eq_none_iff.mp hr
      simp only [pushCheck_eq_some_iff, popCheck_eq_some_iff] at hsp
      obtain ⟨-, rfl⟩ := hsp
      simp [Instr.wellFormed, hvalid]

/-- Settles O19: a Running engine becomes Faulted only by a check that fails, which is one of a register exactly for an
ill-formed instruction (`cause_of_failingCheck`). -/
theorem invalidRegisterExactlyWhenIllFormed : Obligations.InvalidRegisterExactlyWhenIllFormed := by
  intro i s hrun
  constructor
  · rintro ⟨t, f, hexec, hfaulted, hfault, hcause⟩
    obtain ⟨e, hcheck, rfl⟩ | ⟨-, ht⟩ := exec_cases hexec
    · cases hfault
      exact (cause_of_failingCheck hcheck).mp hcause
    · rw [ht.runState, hrun] at hfaulted
      split at hfaulted <;> cases hfaulted
  · intro hwf
    cases hcheck : failingCheck s i with
    | none =>
      obtain ⟨hvalid, -, -⟩ := failingCheck_eq_none_iff.mp hcheck
      rw [hwf] at hvalid
      cases hvalid
    | some e => exact ⟨_, _, exec_of_failingCheck hcheck, rfl, rfl, (cause_of_failingCheck hcheck).mpr hwf⟩

end Sys2Proof.Machine
end

section
/-! PROOFS. The order of the fault checks over a whole step (spec/40_engine.md section 3, spec/60_exceptions.md section
3). -/

namespace Sys2Proof.Machine

/-- The fault of the first check of a step that fails: a check of the fetch, or one of the handler. -/
def stepCheck (s : State) : Option Raised :=
  match fetch s with
  | .ok i => failingCheck s i
  | .error e => some e

/-- Everything that a step can do: take the fault of its first check that fails, or complete the instruction fetched. -/
theorem step_cases {s t : State} (h : step s = .next t) :
    s.runState = .running ∧ ((∃ e, stepCheck s = some e ∧ t = s.takeFault e) ∨
      ∃ i, fetch s = .ok i ∧ stepCheck s = none ∧ Completes s i t) := by
  obtain ⟨hrun, ⟨e, hf, rfl⟩ | ⟨i, hf, hexec⟩⟩ := step_next h
  · exact ⟨hrun, .inl ⟨e, by rw [stepCheck, hf], rfl⟩⟩
  · have hcheck : stepCheck s = failingCheck s i := by rw [stepCheck, hf]
    obtain ⟨e, he, rfl⟩ | ⟨hnone, hdone⟩ := exec_cases hexec
    · exact ⟨hrun, .inl ⟨e, hcheck.trans he, rfl⟩⟩
    · exact ⟨hrun, .inr ⟨i, hf, hcheck.trans hnone, hdone⟩⟩

/-- A Running engine takes a step: a fault is a next state too. -/
theorem exists_step {s : State} (hrun : s.runState = .running) : ∃ t, step s = .next t := by
  cases hf : fetch s with
  | error e => exact ⟨_, step_of_fetch_error hrun hf⟩
  | ok i =>
    obtain ⟨t, ht⟩ := exec_total i s
    exact ⟨t, (step_of_fetch_ok hrun hf).trans ht⟩

/-- The fault record left by checks made in `s`: that of the fault found, else the old one. -/
def recordOf (s : State) (check : Option Raised) : Option FaultRecord :=
  check.elim s.fault fun e => some ⟨e.cause, s.pc, e.info⟩

/-- A step leaves the record of its first check that fails. -/
theorem step_record {s t : State} (h : step s = .next t) : t.fault = recordOf s (stepCheck s) := by
  obtain ⟨-, ⟨e, hcheck, rfl⟩ | ⟨i, -, hcheck, hdone⟩⟩ := step_cases h
  · rw [hcheck]; rfl
  · rw [hcheck]; exact hdone.fault

/-! ### The record of each check of a handler -/

theorem recordOf_regCheck_or (s : State) (b : Byte) (c : Option Raised) :
    recordOf s ((regCheck b).or c) =
      if 8 ≤ b.toNat then some ⟨.invalidRegister, s.pc, some (b.toNat : Int)⟩ else recordOf s c := by
  rcases Nat.lt_or_ge b.toNat 8 with h | h
  · rw [regCheck_eq_none_iff.mpr h, if_neg (by omega), Option.none_or]
  · rw [regCheck_eq_some_iff.mpr ⟨h, rfl⟩, if_pos h]; rfl

theorem recordOf_regCheck (s : State) (b : Byte) :
    recordOf s (regCheck b) =
      if 8 ≤ b.toNat then some ⟨.invalidRegister, s.pc, some (b.toNat : Int)⟩ else s.fault := by
  rw [← Option.or_none (o := regCheck b), recordOf_regCheck_or]; rfl

theorem recordOf_pushCheck (s : State) :
    recordOf s (pushCheck s) =
      if (s.reg spIdx).toNat = 0 then some ⟨.outOfBounds, s.pc, some (-1)⟩ else s.fault := by
  by_cases h : (s.reg spIdx).toNat = 0
  · rw [pushCheck_eq_some_iff.mpr ⟨BitVec.eq_of_toNat_eq h, rfl⟩, if_pos h]; rfl
  · rw [pushCheck_eq_none_iff.mpr (fun h0 => h (h0 ▸ rfl)), if_neg h]; rfl

theorem recordOf_popCheck (s : State) :
    recordOf s (popCheck s) =
      if 0xF4 ≤ (s.reg spIdx).toNat then some ⟨.outOfBounds, s.pc, some ((s.reg spIdx).toNat : Int)⟩
      else s.fault := by
  rcases Nat.lt_or_ge (s.reg spIdx).toNat 0xF4 with h | h
  · rw [popCheck_eq_none_iff.mpr h, if_neg (by omega)]; rfl
  · rw [popCheck_eq_some_iff.mpr ⟨h, rfl⟩, if_pos h]; rfl

/-! ### The record of a step, by the entry of the opcode -/

section
variable {s : State} (hpc : s.pc.toNat < 256)
include hpc

theorem recordOf_stepCheck_invalidOpcode (h : dispatch (s.mem.read s.pc.toNat) = none) :
    recordOf s (stepCheck s) = some ⟨.invalidOpcode, s.pc, some ((s.mem.read s.pc.toNat).toNat : Int)⟩ := by
  rw [stepCheck, fetch_invalidOpcode hpc h]; rfl

theorem recordOf_stepCheck_f0 {i : Instr}
    (hentry : (dispatch (s.mem.read s.pc.toNat)).map Row.entry = some (.f0 i)) :
    recordOf s (stepCheck s) = recordOf s (failingCheck s i) := by
  rw [stepCheck, fetch_f0 (by omega) hentry]

theorem recordOf_stepCheck_f1 {make : Byte → Instr}
    (hentry : (dispatch (s.mem.read s.pc.toNat)).map Row.entry = some (.f1 make)) :
    recordOf s (stepCheck s) = if s.pc.toNat = 255 then some ⟨.outOfBounds, s.pc, some 256⟩
      else recordOf s (failingCheck s (make (s.mem.read (s.pc.toNat + 1)))) := by
  rw [stepCheck, fetch_inside hpc, hentry]
  by_cases h : s.pc.toNat = 255
  · simp only [if_pos h]; rfl
  · simp only [if_neg h]

theorem recordOf_stepCheck_f2 {make : Byte → Byte → Instr}
    (hentry : (dispatch (s.mem.read s.pc.toNat)).map Row.entry = some (.f2 make)) :
    recordOf s (stepCheck s) = if s.pc.toNat = 255 then some ⟨.outOfBounds, s.pc, some 256⟩
      else if s.pc.toNat = 254 then some ⟨.outOfBounds, s.pc, some 256⟩
      else recordOf s (failingCheck s (make (s.mem.read (s.pc.toNat + 1)) (s.mem.read (s.pc.toNat + 2)))) := by
  rw [stepCheck, fetch_inside hpc, hentry]
  by_cases h : 254 ≤ s.pc.toNat
  · rw [← ite_or, if_pos (by omega : s.pc.toNat = 255 ∨ s.pc.toNat = 254)]
    simp only [if_pos h]; rfl
  · rw [if_neg (by omega : ¬ s.pc.toNat = 255), if_neg (by omega : ¬ s.pc.toNat = 254)]
    simp only [if_neg h]

end

/-- Settles O6: the step looks at the run state first (`step_halted`, `step_faulted`). -/
theorem terminalStatesTakeNoStep : Obligations.TerminalStatesTakeNoStep :=
  fun _ => ⟨step_halted, step_faulted⟩

/-- Settles O23: the record of a step is that of its first failing check (`step_record`). At 256 that is the opcode
fetch; below, the opcode's entry says which checks there are, and in the obligation's chain of cases those of the other
opcodes drop out. -/
theorem firstFailingCheckIsReported : Obligations.FirstFailingCheckIsReported := by
  intro s hrun hpc
  obtain ⟨t, hstep⟩ := exists_step hrun
  refine ⟨t, hstep, (step_record hstep).trans ?_⟩
  by_cases htop : s.pc.toNat = 256
  · rw [if_pos htop, stepCheck, fetch_beyond htop.ge, htop]; rfl
  have hlt : s.pc.toNat < 256 := by omega
  rw [if_neg htop]
  obtain hldi | hprn | hhlt | hmul | hpush | hpop | ⟨hnone, hother⟩ := dispatch_cases (s.mem.read s.pc.toNat)
  · rw [recordOf_stepCheck_f2 hlt (make := .ldi) (by rw [hldi]; rfl)]
    simp [hldi, failingCheck, recordOf_regCheck]
  · rw [recordOf_stepCheck_f1 hlt (make := .prn) (by rw [hprn]; rfl)]
    simp [hprn, failingCheck, recordOf_regCheck]
  · rw [recordOf_stepCheck_f0 hlt (i := .hlt) (by rw [hhlt]; rfl)]
    simp [hhlt, failingCheck, recordOf]
  · rw [recordOf_stepCheck_f2 hlt (make := .mul) (by rw [hmul]; rfl)]
    simp [hmul, failingCheck, recordOf_regCheck_or, recordOf_regCheck]
  · rw [recordOf_stepCheck_f1 hlt (make := .push) (by rw [hpush]; rfl)]
    simp [hpush, failingCheck, recordOf_regCheck_or, recordOf_pushCheck]
  · rw [recordOf_stepCheck_f1 hlt (make := .pop) (by rw [hpop]; rfl)]
    simp [hpop, failingCheck, recordOf_regCheck_or, recordOf_popCheck]
  · rw [recordOf_stepCheck_invalidOpcode hlt hnone, if_pos (by simpa using hother)]

end Sys2Proof.Machine
end

section
/-! PROOFS. The ALU's contract, and MUL on signed operands (spec/42_alu.md section 1). -/

namespace Sys2Proof.Machine

theorem alu_error_a {a : Byte} (h : 8 ≤ a.toNat) (op : AluOp) (b : Byte) (s : State) :
    alu op a b s = .error ⟨.invalidRegister, some (a.toNat : Int)⟩ := by
  rw [alu, regOperand_error h, bind_error]

theorem alu_error_b {a b : Byte} (ha : a.toNat < 8) (hb : 8 ≤ b.toNat) (op : AluOp) (s : State) :
    alu op a b s = .error ⟨.invalidRegister, some (b.toNat : Int)⟩ := by
  rw [alu, regOperand_ok ha, bind_ok, regOperand_error hb, bind_error]

/-- A register write holds the value modulo 256, and changes no other register and no other field. -/
theorem setReg_contract (s : State) (i : RegIdx) (n : Nat) :
    ((s.setReg i n).reg i).toNat = n % 256 ∧ (∀ j : RegIdx, j.val ≠ i.val → (s.setReg i n).reg j = s.reg j) ∧
      s.setReg i n = { s with regs := (s.setReg i n).regs } :=
  ⟨by rw [reg_setReg, if_pos rfl, BitVec.toNat_ofNat], fun _ hj => reg_setReg_of_val_ne hj s n, rfl⟩

/-- Settles O24: with valid operands the ALU writes its result to the first register (`alu_ok`, `setReg_contract`). -/
theorem aluContract : Obligations.AluContract := by
  intro op a b s
  refine ⟨fun ha => alu_error_a ha op b s, fun ha hb => alu_error_b ha hb op s, fun ha hb => ?_⟩
  cases op with
  | mul => exact ⟨_, alu_ok ha hb .mul s, setReg_contract s _ _⟩
  | add => exact ⟨_, alu_ok ha hb .add s, setReg_contract s _ _⟩
  | other => exact alu_ok ha hb .other s

/-- The low byte of a product is the same for both readings of its factors: it is the product of the bytes. -/
theorem ofNat_mul_toNat_eq_ofInt_mul_toInt (x y : Byte) :
    BitVec.ofNat 8 (x.toNat * y.toNat) = BitVec.ofInt 8 (x.toInt * y.toInt) := by
  rw [BitVec.ofNat_mul, BitVec.ofInt_mul, BitVec.ofNat_toNat, BitVec.ofNat_toNat, BitVec.ofInt_toInt,
    BitVec.ofInt_toInt, BitVec.setWidth_eq, BitVec.setWidth_eq]

/-- Settles O25: MUL writes the unsigned product's low byte (`exec_mul_ok`), which is the signed one's. -/
theorem mulIsLowByteOfSignedProduct : Obligations.MulIsLowByteOfSignedProduct := by
  intro ra rb s ha hb
  refine ⟨_, exec_mul_ok ha hb s, ?_⟩
  rw [setPc_reg, reg_setReg, if_pos rfl, ofNat_mul_toNat_eq_ofInt_mul_toInt]

end Sys2Proof.Machine
end

section
/-! PROOFS. What an instruction may change: memory, registers, output (spec/10_state.md rules R13, R22, R23). -/

namespace Sys2Proof.Machine

/-- Settles O30: a fault keeps memory, and of the instructions that complete only PUSH writes it (`Completes.mem`). -/
theorem onlyPushChangesMemory : Obligations.OnlyPushChangesMemory := by
  intro i s t a hexec hne
  obtain ⟨e, -, rfl⟩ | ⟨-, hdone⟩ := exec_cases hexec
  · exact absurd rfl hne
  · obtain hsame | ⟨r, v, rfl, hsp, hwrite⟩ := hdone.mem
    · exact absurd (by rw [hsame]) hne
    · have ha : (s.reg spIdx).toNat - 1 = a := by
        by_contra hother
        rw [hwrite, read_write_ne _ _ hother] at hne
        exact hne rfl
      exact ⟨r, rfl, ha ▸ pushAddr_ok hsp⟩

/-- A register that a write changes is the one written. -/
theorem eq_of_reg_setReg_ne {s : State} {i j : RegIdx} {v : Nat} (h : (s.setReg i v).reg j ≠ s.reg j) : j = i := by
  by_contra hne
  exact h (by rw [reg_setReg, if_neg (Ne.symm hne)])

/-- Settles O31: a fault keeps the registers, and what an instruction that completes writes is one register, or for POP
its operand and then the stack pointer. -/
theorem registerWritesAreTheTable : Obligations.RegisterWritesAreTheTable := by
  intro i s t j hexec hne
  obtain ⟨e, -, rfl⟩ | ⟨-, hdone⟩ := exec_cases hexec
  · exact absurd rfl hne
  · cases hdone with
    | ldi | mul => exact congrArg Fin.val (eq_of_reg_setReg_ne hne)
    | prn | hlt => exact hne rfl
    | push => exact eq_of_reg_setReg_ne hne
    | pop =>
      by_cases hj : j = spIdx
      · exact .inr hj
      · rw [setPc_reg, reg_setReg, if_neg (Ne.symm hj)] at hne
        exact .inl (congrArg Fin.val (eq_of_reg_setReg_ne hne))

/-- Settles O32: a fault keeps the output, and of the instructions that complete only PRN appends to it
(`Completes.out`). -/
theorem outputIsAppendOnly : Obligations.OutputIsAppendOnly := by
  intro i s t hexec hne
  obtain ⟨e, -, rfl⟩ | ⟨-, hdone⟩ := exec_cases hexec
  · exact absurd rfl hne
  · obtain hsame | ⟨r, hr, hi, hout⟩ := hdone.out
    · exact absurd hsame hne
    · exact ⟨r, hr, hi, hout⟩

/-! ### Nothing reads the output -/

/-- The state with more output before its own. -/
def State.prependOut (s : State) (earlier : List Byte) : State := { s with out := earlier ++ s.out }

theorem fetch_prependOut (s : State) (earlier : List Byte) : fetch (s.prependOut earlier) = fetch s := rfl

theorem failingCheck_prependOut (s : State) (earlier : List Byte) (i : Instr) :
    failingCheck (s.prependOut earlier) i = failingCheck s i := by
  cases i <;> rfl

theorem takeFault_prependOut (s : State) (earlier : List Byte) (e : Raised) :
    (s.prependOut earlier).takeFault e = (s.takeFault e).prependOut earlier := rfl

theorem emit_prependOut (s : State) (earlier : List Byte) (v : Byte) :
    (s.prependOut earlier).emit v = (s.emit v).prependOut earlier := by
  simp [State.prependOut, State.emit]

theorem Completes.prependOut {i : Instr} {s t : State} (h : Completes s i t) (earlier : List Byte) :
    Completes (s.prependOut earlier) i (t.prependOut earlier) := by
  cases h with
  | ldi hr => exact .ldi hr
  | hlt => exact .hlt
  | mul ha hb => exact .mul ha hb
  | push hr hsp => exact .push hr hsp
  | pop hr hsp => exact .pop hr hsp
  | prn hr =>
    have hdone := Completes.prn (s := s.prependOut earlier) hr
    rw [emit_prependOut] at hdone
    exact hdone

theorem exec_prependOut {i : Instr} {s t : State} (h : exec i s = .next t) (earlier : List Byte) :
    exec i (s.prependOut earlier) = .next (t.prependOut earlier) := by
  obtain ⟨e, hcheck, rfl⟩ | ⟨-, hdone⟩ := exec_cases h
  · rw [exec_of_failingCheck ((failingCheck_prependOut s earlier i).trans hcheck), takeFault_prependOut]
  · exact (hdone.prependOut earlier).exec

/-- Settles O33: neither the run state nor the fetch nor a check looks at the output, and an instruction that completes
leaves the earlier values before it (`exec_prependOut`). -/
theorem outputIsNeverRead : Obligations.OutputIsNeverRead := by
  intro s earlier
  change step (s.prependOut earlier) = _
  cases hrun : s.runState with
  | notStarted => rw [step_notStarted hrun, step_notStarted (by exact hrun)]
  | halted => rw [step_halted hrun, step_halted (by exact hrun)]
  | faulted => rw [step_faulted hrun, step_faulted (by exact hrun)]
  | running =>
    have hrun' : (s.prependOut earlier).runState = .running := hrun
    cases hf : fetch s with
    | error e => rw [step_of_fetch_error hrun hf, step_of_fetch_error hrun' hf]; rfl
    | ok i =>
      obtain ⟨t, ht⟩ := exec_total i s
      rw [step_of_fetch_ok hrun hf, ht, step_of_fetch_ok hrun' hf, exec_prependOut ht]
      rfl

end Sys2Proof.Machine
end

section
/-! PROOFS. The program counter, the length of a run and of its output (spec/10_state.md rules R16 to R18,
spec/40_engine.md section 4). -/

namespace Sys2Proof.Machine

theorem length_of_ne_hlt {i : Instr} (h : i ≠ .hlt) : i.length = 2 ∨ i.length = 3 := by
  cases i with
  | hlt => exact absurd rfl h
  | ldi | mul => exact .inr rfl
  | prn | push | pop => exact .inl rfl

/-- An instruction that was fetched lies inside memory, so the pc is advanced by its length without wrap, to 256 at
most. -/
theorem Completes.pc_toNat {i : Instr} {s t : State} (h : Completes s i t) (hf : fetch s = .ok i) (hi : i ≠ .hlt) :
    t.pc.toNat = s.pc.toNat + i.length ∧ t.pc.toNat ≤ 256 := by
  obtain ⟨hfits, -⟩ := fetch_ok hf
  rw [h.pc, if_neg hi, pc_add_toNat (by omega)]
  exact ⟨rfl, hfits⟩

/-- Settles O26: a fault and HLT end the run where it stands; any other instruction completes, and advances the pc by
its length (`Completes.pc_toNat`). -/
theorem pcIsMonotonic : Obligations.PcIsMonotonic := by
  intro s t hstep
  obtain ⟨hrun, ⟨e, -, rfl⟩ | ⟨i, hf, -, hdone⟩⟩ := step_cases hstep
  · exact .inr ⟨.inr rfl, rfl⟩
  · have hrunState := hdone.runState
    by_cases hi : i = .hlt
    · rw [if_pos hi] at hrunState
      exact .inr ⟨.inl hrunState, hdone.pc.trans (if_pos hi)⟩
    · rw [if_neg hi] at hrunState
      obtain ⟨hpc, hle⟩ := hdone.pc_toNat hf hi
      exact .inl ⟨hrunState.trans hrun, hpc ▸ (length_of_ne_hlt hi).imp (congrArg _) (congrArg _), hle⟩

/-- A run from `s` ends within half the cells above the pc plus one steps. -/
theorem run_ends (s : State) (hrun : s.runState = .running) :
    ∃ k t, k ≤ (256 - s.pc.toNat) / 2 + 1 ∧ core.run k s = .next t ∧ t.ended := by
  obtain ⟨u, hu⟩ := exists_step hrun
  obtain ⟨hurun, hpc, hle⟩ | ⟨hended, -⟩ := pcIsMonotonic s u hu
  · obtain ⟨k, t, hk, hrunk, hended⟩ := run_ends u hurun
    exact ⟨k + 1, t, by omega, (run_next hu).trans hrunk, hended⟩
  · exact ⟨1, u, by omega, (run_next hu).trans (run_zero u), hended⟩
termination_by 256 - s.pc.toNat

/-- Settles O29: each step that does not end the run takes 2 of the cells above the pc (`pcIsMonotonic`), so it ends
(`run_ends`), within 129 steps wherever the pc is. -/
theorem everyRunEnds : Obligations.EveryRunEnds := by
  intro s hrun
  obtain ⟨k, t, hk, hrunk, hended⟩ := run_ends s hrun
  exact ⟨k, t, by omega, hk, hrunk, hended⟩

theorem pc_le_of_step {s t : State} (h : step s = .next t) : s.pc.toNat ≤ t.pc.toNat := by
  obtain ⟨-, hadv, -⟩ | ⟨-, hsame⟩ := pcIsMonotonic s t h
  · omega
  · rw [hsame]

/-- Settles O40: the pc never goes down, and the one value that PRN emits is paid for by PRN's own 2 bytes, which lie
inside memory (`Completes.pc_toNat`). -/
theorem stepKeepsOutputBound : Obligations.StepKeepsOutputBound := by
  intro s t hbound hpc hstep
  have hmono := pc_le_of_step hstep
  obtain ⟨-, ⟨e, -, rfl⟩ | ⟨i, hf, -, hdone⟩⟩ := step_cases hstep
  · rw [takeFault_out, takeFault_pc]
    omega
  · obtain hsame | ⟨r, hr, rfl, hout⟩ := hdone.out
    · rw [hsame]
      omega
    · obtain ⟨hadv, hle⟩ := hdone.pc_toNat hf nofun
      rw [hout, List.length_append, List.length_singleton]
      rw [Instr.length] at hadv
      omega

end Sys2Proof.Machine
end

section
/-! PROOFS. The engine's invariant: at reset, and kept by every step (spec/10_state.md rules R16 to R20). -/

namespace Sys2Proof.Machine

/-- Settles O38: memory is empty, and every other clause is of a field's reset value. -/
theorem invariantHoldsAtReset : Obligations.InvariantHoldsAtReset where
  memCanonical := wf_reset
  pcInRange := by decide
  faultIffFaulted := by decide
  faultAtPc := nofun
  faultInRange := nofun
  resetBeforeStart := fun _ => rfl

/-- A Running or Halted engine without a fault record meets the invariant where memory and pc are in order. -/
theorem inv_of_fault_eq_none {s : State} (hmem : s.mem.wf) (hpc : s.pc.toNat ≤ 256) (hfault : s.fault = none)
    (hrun : s.runState = .running ∨ s.runState = .halted) : s.Inv where
  memCanonical := hmem
  pcInRange := hpc
  faultIffFaulted := by obtain h | h := hrun <;> simp [hfault, h]
  faultAtPc := by simp [hfault]
  faultInRange := by simp [hfault]
  resetBeforeStart := by obtain h | h := hrun <;> simp [h]

/-- Under the invariant an engine that is not Faulted has no fault record. -/
theorem State.Inv.fault_eq_none {s : State} (h : s.Inv) (hrun : s.runState ≠ .faulted) : s.fault = none :=
  Option.not_isSome_iff_eq_none.mp (mt h.faultIffFaulted.mp hrun)

/-! ### Faults -/

/-- The cause and info of a fault are in range (rules R20, R131), whatever pc the record names. -/
def Raised.InRange (e : Raised) : Prop := ∀ p, (FaultRecord.mk e.cause p e.info).inRange

/-- Taking a fault in range keeps the invariant. -/
theorem State.Inv.takeFault {s : State} (h : s.Inv) {e : Raised} (he : e.InRange) : (s.takeFault e).Inv where
  memCanonical := h.memCanonical
  pcInRange := h.pcInRange
  faultIffFaulted := by simp
  faultAtPc := by rintro _ ⟨⟩; rfl
  faultInRange := by rintro _ ⟨⟩; exact he s.pc
  resetBeforeStart := nofun

theorem inRange_of_regCheck {b : Byte} {e : Raised} (h : regCheck b = some e) : e.InRange := by
  obtain ⟨hb, rfl⟩ := regCheck_eq_some_iff.mp h
  have hlt := b.isLt
  intro p
  simp only [FaultRecord.inRange]
  omega

theorem inRange_of_pushCheck {s : State} {e : Raised} (h : pushCheck s = some e) : e.InRange := by
  obtain ⟨-, rfl⟩ := pushCheck_eq_some_iff.mp h
  exact fun _ => .inl rfl

theorem inRange_of_popCheck {s : State} {e : Raised} (h : popCheck s = some e) : e.InRange := by
  obtain ⟨hsp, rfl⟩ := popCheck_eq_some_iff.mp h
  have hlt := (s.reg spIdx).isLt
  intro p
  simp only [FaultRecord.inRange, Config.spReset, BitVec.reduceToNat]
  omega

theorem inRange_of_failingCheck {i : Instr} {s : State} {e : Raised} (h : failingCheck s i = some e) : e.InRange := by
  cases i with
  | hlt => cases h
  | ldi | prn => exact inRange_of_regCheck h
  | mul => exact (Option.or_eq_some_iff.mp h).elim inRange_of_regCheck fun h => inRange_of_regCheck h.2
  | push => exact (Option.or_eq_some_iff.mp h).elim inRange_of_regCheck fun h => inRange_of_pushCheck h.2
  | pop => exact (Option.or_eq_some_iff.mp h).elim inRange_of_regCheck fun h => inRange_of_popCheck h.2

/-- With the pc at most 256 a fetch that leaves memory does so at 256, and an opcode byte is at most 255. -/
theorem inRange_of_fetch_error {s : State} {e : Raised} (hpc : s.pc.toNat ≤ 256) (h : fetch s = .error e) :
    e.InRange := by
  obtain ⟨htop, rfl⟩ | ⟨-, -, rfl⟩ | ⟨-, -, rfl⟩ := fetch_error h
  · intro p
    simp only [FaultRecord.inRange]
    omega
  · have hlt := (s.mem.read s.pc.toNat).isLt
    intro p
    simp only [FaultRecord.inRange]
    omega
  · exact fun _ => .inr (.inl rfl)

theorem inRange_of_stepCheck {s : State} {e : Raised} (hpc : s.pc.toNat ≤ 256) (h : stepCheck s = some e) :
    e.InRange := by
  cases hf : fetch s with
  | error e' =>
    rw [stepCheck, hf] at h
    cases h
    exact inRange_of_fetch_error hpc hf
  | ok i =>
    rw [stepCheck, hf] at h
    exact inRange_of_failingCheck h

/-! ### Completed instructions -/

theorem Completes.wf_mem {i : Instr} {s t : State} (h : Completes s i t) (hs : s.mem.wf) : t.mem.wf := by
  obtain hsame | ⟨r, v, -, -, hwrite⟩ := h.mem
  · exact hsame ▸ hs
  · have hlt := (s.reg spIdx).isLt
    exact hwrite ▸ wf_write hs v (show _ < 256 by omega)

theorem Completes.pc_le {i : Instr} {s t : State} (h : Completes s i t) (hf : fetch s = .ok i)
    (hs : s.pc.toNat ≤ 256) : t.pc.toNat ≤ 256 := by
  by_cases hi : i = .hlt
  · rwa [h.pc, if_pos hi]
  · exact (h.pc_toNat hf hi).2

/-- Settles O39: the fault that a step takes is in range (`inRange_of_stepCheck`), and taking it keeps the invariant; a
completed instruction leaves a started engine without a record, its memory canonical and its pc in range. -/
theorem stepKeepsInvariant : Obligations.StepKeepsInvariant := by
  intro s t hinv hstep
  obtain ⟨hrun, ⟨e, hcheck, rfl⟩ | ⟨i, hf, -, hdone⟩⟩ := step_cases hstep
  · exact hinv.takeFault (inRange_of_stepCheck hinv.pcInRange hcheck)
  · refine inv_of_fault_eq_none (hdone.wf_mem hinv.memCanonical) (hdone.pc_le hf hinv.pcInRange)
      (hdone.fault.trans (hinv.fault_eq_none (by simp [hrun]))) ?runState
    case runState =>
      rw [hdone.runState, hrun]
      exact (em (i = .hlt)).elim (fun h => .inr (if_pos h)) fun h => .inl (if_neg h)

/-- Settles O35: a step begins in a Running state, which has no record, and ends in a state of the invariant
(`stepKeepsInvariant`). -/
theorem faultRecordWrittenWithFaulted : Obligations.FaultRecordWrittenWithFaulted := by
  intro s t hinv hstep
  obtain ⟨hrun, -⟩ := step_next hstep
  exact ⟨hinv.fault_eq_none (by simp [hrun]),
    Option.isSome_iff_ne_none.symm.trans (stepKeepsInvariant s t hinv hstep).faultIffFaulted⟩

end Sys2Proof.Machine
end

section
/-! PROOFS. Stack discipline: PUSH and POP of registers other than R7 are inverse to each other, last in, first out
(spec/43_stack.md rules R109, R110), and a pushed byte is seen by the next fetch (spec/20_memory.md rule R45). -/

namespace Sys2Proof.Machine

/-- `t` is `s` after slot `x` was pushed, up to the pc: the pointer went down by 1, to the one cell written. -/
structure Pushes (x : RegIdx) (s t : State) : Prop where
  pointer : (t.reg spIdx).toNat = (s.reg spIdx).toNat - 1
  regs : ∀ j, j ≠ spIdx → t.reg j = s.reg j
  cell : t.mem.read ((s.reg spIdx).toNat - 1) = s.reg x
  cells : ∀ a, a ≠ (s.reg spIdx).toNat - 1 → t.mem.read a = s.mem.read a

/-- `t` is `s` after slot `x` was popped, up to the pc: the pointer went up by 1, from the one cell read. -/
structure Pops (x : RegIdx) (s t : State) : Prop where
  pointer : (t.reg spIdx).toNat = (s.reg spIdx).toNat + 1
  loaded : t.reg x = s.mem.read (s.reg spIdx).toNat
  regs : ∀ j, j ≠ x → j ≠ spIdx → t.reg j = s.reg j
  cells : ∀ a, t.mem.read a = s.mem.read a

theorem exec_push_pushes {r : Byte} (h : r.toNat < 7) {s : State} (hsp : s.reg spIdx ≠ 0#8) :
    ∃ t, exec (.push r) s = .next t ∧ Pushes ⟨r.toNat, by omega⟩ s t := by
  obtain ⟨t, hexec, hpointer, hregs, hcell, haddr, hcells, -⟩ := pushStoresOneCell r s (by omega) hsp
  refine ⟨t, hexec, ?pointer, hregs, hcell.trans (if_neg (by omega)), hcells _ haddr⟩
  case pointer =>
    rw [hpointer]
    bv_omega

theorem exec_pop_pops {r : Byte} (h : r.toNat < 7) {s : State} (hsp : (s.reg spIdx).toNat < 0xF4) :
    ∃ t, exec (.pop r) s = .next t ∧ Pops ⟨r.toNat, by omega⟩ s t := by
  obtain ⟨t, hexec, hother, -, hregs, hcells, -⟩ := popLoadsOneCell r s (by omega) hsp
  obtain ⟨hloaded, hpointer⟩ := hother (by omega)
  refine ⟨t, hexec, ?pointer, hloaded, fun j hj => hregs j fun hval => hj (Fin.ext hval), hcells⟩
  case pointer =>
    rw [hpointer]
    bv_omega

/-- Settles O36: POP reads the cell that PUSH wrote, into the register it came from, and moves the pointer back. -/
theorem pushThenPopRestoresRegisters : Obligations.PushThenPopRestoresRegisters := by
  intro r s h hsp hle
  have hpos : (s.reg spIdx).toNat ≠ 0 := fun h0 => hsp (BitVec.eq_of_toNat_eq h0)
  obtain ⟨t, hpush, ht⟩ := exec_push_pushes h hsp
  obtain ⟨u, hpop, hu⟩ := exec_pop_pops (s := t) h (by rw [ht.pointer]; omega)
  refine ⟨t, u, hpush, hpop, ?registers, (hu.cells _).trans ht.cell, fun a ha => (hu.cells a).trans (ht.cells a ha)⟩
  case registers =>
    intro j
    by_cases hj : j = ⟨r.toNat, by omega⟩
    · rw [hj, hu.loaded, ht.pointer, ht.cell]
    · by_cases hjsp : j = spIdx
      · apply BitVec.eq_of_toNat_eq
        rw [hjsp, hu.pointer, ht.pointer, Nat.sub_add_cancel (by omega)]
      · rw [hu.regs j hj hjsp, ht.regs j hjsp]

/-- Settles O37: the second push writes below the cell of the first, so each pop finds its cell as it was pushed; the
second pop leaves the register of the first, which is another. -/
theorem pushPushPopPopIsLifo : Obligations.PushPushPopPopIsLifo := by
  intro r1 r2 r3 r4 s h1 h2 h3 h4 hne hlo hhi
  obtain ⟨t, hpush1, ht⟩ := exec_push_pushes (s := s) h1 (by intro h0; simp [h0] at hlo)
  have htsp := ht.pointer
  obtain ⟨u, hpush2, hu⟩ := exec_push_pushes (s := t) h2 (by intro h0; simp [h0] at htsp; omega)
  have husp := hu.pointer
  obtain ⟨v, hpop3, hv⟩ := exec_pop_pops (s := u) h3 (by omega)
  have hvsp := hv.pointer
  obtain ⟨w, hpop4, hw⟩ := exec_pop_pops (s := v) h4 (by omega)
  refine ⟨t, u, v, w, hpush1, hpush2, hpop3, hpop4, ?second, ?first, ?pointer⟩
  case second =>
    have hslots : r3.toNat ≠ r4.toNat := fun h => hne (BitVec.eq_of_toNat_eq h)
    rw [hw.regs _ (fun h => hslots (Fin.mk.inj h)) (Fin.ne_of_lt h3), hv.loaded, husp, hu.cell,
      ht.regs _ (Fin.ne_of_lt h2)]
  case first =>
    have hcell : (v.reg spIdx).toNat = (s.reg spIdx).toNat - 1 := by omega
    rw [hw.loaded, hcell, hv.cells, hu.cells _ (by omega), ht.cell]
  case pointer =>
    have hwsp := hw.pointer
    exact BitVec.eq_of_toNat_eq (by omega)

/-- Settles O16: the two clauses are those of `pushStoresOneCell` and `popLoadsOneCell` for operand 7. -/
theorem pushAndPopOfStackPointer : Obligations.PushAndPopOfStackPointer := by
  intro s
  constructor
  · intro hsp
    have hpred : (s.reg spIdx - 1#8).toNat = (s.reg spIdx).toNat - 1 := by bv_omega
    obtain ⟨t, hexec, hpointer, -, hcell, -⟩ := pushStoresOneCell 7#8 s (by decide) hsp
    refine ⟨t, hexec, hpointer ▸ hpred, ?_⟩
    rw [hcell, if_pos (by decide), hpred]
  · intro hsp
    obtain ⟨t, hexec, -, hr7, -⟩ := popLoadsOneCell 7#8 s (by decide) hsp
    exact ⟨t, hexec, hr7 rfl⟩

/-- Settles O34: PUSH stores the register in the cell that the pc then reaches (`pushStoresOneCell`), so the next step
fetches it: as HLT's opcode it halts, and a byte without an entry is a fault. -/
theorem pushedByteIsFetchedNext : Obligations.PushedByteIsFetchedNext := by
  intro s r h hrun hpc hop hr hsp
  have hfetch : fetch s = .ok (.push r) := hr ▸ fetch_f1 (by omega) (by rw [hop]; rfl)
  obtain ⟨t, hexec, -, -, hcell, -, -, -, htpc, htrun, -⟩ :=
    pushStoresOneCell r s (by omega) (by intro h0; simp [h0] at hsp)
  have htpc := htpc (by omega)
  have htrun := htrun.trans hrun
  rw [if_neg (by omega), show (s.reg spIdx).toNat - 1 = s.pc.toNat + 2 by omega] at hcell
  refine ⟨t, (step_of_fetch_ok hrun hfetch).trans hexec, hcell, htpc, ?halts, ?faults⟩
  case halts =>
    intro hhlt
    have hnext : fetch t = .ok .hlt := fetch_f0 (by omega) (by rw [htpc, hcell, hhlt]; rfl)
    exact (step_of_fetch_ok htrun hnext).trans (exec_hlt t)
  case faults =>
    intro hnone
    have hnext := fetch_invalidOpcode (s := t) (by omega) (by rw [htpc, hcell, hnone])
    rw [htpc, hcell] at hnext
    exact step_of_fetch_error htrun hnext

/-- Settles O14: PRN's state is the handler's (`exec_prn_ok`), and each clause reads one field of it. -/
theorem prnAppendsRegister : Obligations.PrnAppendsRegister := by
  intro r s h
  exact ⟨_, exec_prn_ok h s, rfl, fun _ => rfl, fun _ => rfl, rfl, fun hpc => pc_add_toNat (by omega), rfl, rfl⟩

end Sys2Proof.Machine
end

section
/-! PROOFS. The host port: reset, load, start, launch and the end status (spec/70_reset_and_hazards.md sections 1 to 4,
spec/10_state.md sections 5 and 9). -/

namespace Sys2Proof.Machine

/-! ### Reset -/

/-- Settles O41: each clause evaluates a field of `State.reset`, which is not started and so takes no step. -/
theorem resetValues : Obligations.ResetValues := by
  refine ⟨read_nil, ?registers, rfl, rfl, rfl, rfl, rfl, step_notStarted rfl⟩
  case registers => decide

/-! ### The host's moves -/

/-- Settles O45: a session that is started or whose load failed is not loadable, which load and start require. -/
theorem startedEngineAcceptsOnlyReset : Obligations.StartedEngineAcceptsOnlyReset := by
  intro x m h
  have hnot : ¬ x.loadable := by
    rintro ⟨hrun, hload⟩
    exact h.elim (absurd hrun) fun hfailed => by rw [hload] at hfailed; cases hfailed
  cases m with
  | reset => rfl
  | load a b | start => exact if_neg hnot

/-- A move that is not start leaves an engine not started. -/
theorem hostMove_notStarted {m : HostMove} {x y : Session} (h : hostMove m x = some y) (hm : m ≠ .start)
    (hx : x.state.runState = .notStarted) : y.state.runState = .notStarted := by
  obtain ⟨-, rfl⟩ | ⟨-, hstart, -⟩ | ⟨-, a, b, -, ⟨-, rfl⟩ | ⟨-, rfl⟩⟩ := hostMove_cases h
  · rfl
  · exact absurd hstart hm
  · exact hx
  · exact hx

theorem hostMoves_notStarted {moves : List HostMove} {x y : Session} (hm : HostMove.start ∉ moves)
    (h : moves.foldlM (fun x m => hostMove m x) x = some y) (hx : x.state.runState = .notStarted) :
    y.state.runState = .notStarted := by
  induction moves generalizing x with
  | nil => cases h; exact hx
  | cons m moves ih =>
    obtain ⟨hne, hrest⟩ := not_or.mp (mt List.mem_cons.mpr hm)
    rw [List.foldlM_cons] at h
    obtain ⟨z, hz, hzy⟩ := Option.bind_eq_some_iff.mp h
    exact ih hrest hzy (hostMove_notStarted hz (Ne.symm hne) hx)

/-- Settles O50: without a start the engine stays not started (`hostMoves_notStarted`), where no step is defined. -/
theorem noStepBeforeStart : Obligations.NoStepBeforeStart :=
  fun _ _ hm h => step_notStarted (hostMoves_notStarted hm h rfl)

/-- Settles O51: a fault leaves Faulted, and a completed instruction Halted for HLT and Running otherwise; of the host's
moves (`hostMove_cases`) load leaves the run state. -/
theorem runStateChangesAsTabled : Obligations.RunStateChangesAsTabled := by
  refine ⟨?steps, ?moves⟩
  case steps =>
    intro s t hstep
    obtain ⟨hrun, ⟨e, hcheck, rfl⟩ | ⟨i, hf, -, hdone⟩⟩ := step_cases hstep
    · refine ⟨hrun, nofun, nofun, fun hf => ?_⟩
      rw [stepCheck, hf] at hcheck
      cases hcheck
    · have hrunState := hdone.runState
      rw [hf, Except.ok.injEq]
      by_cases hi : i = .hlt
      · rw [if_pos hi] at hrunState
        exact ⟨hrun, by simp [hrunState], by simp [hrunState, hi]⟩
      · rw [if_neg hi, hrun] at hrunState
        exact ⟨hrun, by simp [hrunState], by simp [hrunState, hi]⟩
  case moves =>
    intro m x y hmove hne
    obtain ⟨hm, rfl⟩ | ⟨⟨hx, -⟩, hm, rfl⟩ | ⟨-, a, b, -, ⟨-, rfl⟩ | ⟨-, rfl⟩⟩ := hostMove_cases hmove
    · exact .inr ⟨hm, rfl⟩
    · exact .inl ⟨hm, hx, rfl⟩
    · exact absurd rfl hne
    · exact absurd rfl hne

/-! ### The invariant -/

/-- Writing memory in its canonical form keeps the invariant, before start too. -/
theorem State.Inv.setMem {s : State} (h : s.Inv) {m : Memory} (hm : m.wf) : (s.setMem m).Inv where
  memCanonical := hm
  pcInRange := h.pcInRange
  faultIffFaulted := h.faultIffFaulted
  faultAtPc := h.faultAtPc
  faultInRange := h.faultInRange
  resetBeforeStart := fun hrun => by rw [h.resetBeforeStart hrun]; rfl

/-- Starting an engine that is not started keeps the invariant. -/
theorem State.Inv.start {s : State} (h : s.Inv) (hrun : s.runState = .notStarted) : (s.setRunState .running).Inv :=
  inv_of_fault_eq_none h.memCanonical h.pcInRange (h.fault_eq_none (by simp [hrun])) (.inl rfl)

/-- Settles O52: of the moves (`hostMove_cases`) load writes one cell inside memory or nothing, start is usable only
before the engine is started, and reset gives the reset state. -/
theorem hostMovesKeepInvariant : Obligations.HostMovesKeepInvariant := by
  intro m x y hinv hmove
  obtain ⟨-, rfl⟩ | ⟨⟨hx, -⟩, -, rfl⟩ | ⟨-, a, b, -, ⟨ha, rfl⟩ | ⟨-, rfl⟩⟩ := hostMove_cases hmove
  · exact invariantHoldsAtReset
  · exact hinv.start hx
  · exact hinv.setMem (wf_write hinv.memCanonical b ha)
  · exact hinv

/-! ### Launch -/

theorem launch_ok {image : List Byte} (h : image.length ≤ 256) :
    launch image = some ((State.reset.setMem (placeBytes image 0 [])).setRunState .running) := by
  rw [launch, loadImage_ok _ _ _ (by simpa using h)]; rfl

/-- An image that would write beyond the last cell cannot be loaded. -/
theorem loadImage_error (bs : List Byte) (a : Nat) (s : State) (ha : a ≤ 256) (h : 256 < a + bs.length) :
    ∃ e, loadImage bs a s = .error e := by
  induction bs generalizing a s with
  | nil => simp at h; omega
  | cons b bs ih =>
    rw [List.length_cons] at h
    rw [loadImage, memWrite_byte]
    by_cases hlt : a < 256
    · rw [if_pos hlt, bind_ok]
      exact ih _ _ hlt (by omega)
    · rw [if_neg hlt, bind_error]
      exact ⟨_, rfl⟩

/-- Settles O43: loading the image fails (`loadImage_error`). -/
theorem overlongImageHasNoLaunch : Obligations.OverlongImageHasNoLaunch := by
  intro image h
  obtain ⟨e, he⟩ := loadImage_error image Config.loadBase State.reset (by simp) (by simpa using h)
  rw [launch, he]

/-- Settles O42: the launch state is the reset state with the image placed and the engine started (`launch_ok`). -/
theorem launchStateHoldsImage : Obligations.LaunchStateHoldsImage := by
  intro image h
  obtain ⟨-, hregs, hsp, -⟩ := resetValues
  have hinv := (invariantHoldsAtReset.setMem (wf_placeBytes image 0 wf_nil)).start rfl
  refine ⟨_, launch_ok h, ?cells, hinv, hregs, hsp, rfl, rfl, rfl, rfl, ?empty⟩
  case cells =>
    intro a
    exact (read_placeBytes image 0 [] (by omega) a).trans (by simp [List.getD])
  case empty =>
    rintro rfl
    exact ⟨_, step_of_fetch_error rfl (fetch_invalidOpcode (by decide) (by decide)), rfl⟩

/-! ### Loading through the port -/

/-- The moves that load an image from address `a` on, byte by byte, and then start. -/
def loadThenStart (image : List Byte) (a : Nat) : List HostMove :=
  (image.zipIdx a).map (fun c => HostMove.load c.2 c.1) ++ [HostMove.start]

theorem loadThenStart_nil (a : Nat) : loadThenStart [] a = [.start] := rfl

theorem loadThenStart_cons (b : Byte) (image : List Byte) (a : Nat) :
    loadThenStart (b :: image) a = .load a b :: loadThenStart image (a + 1) := rfl

/-- The session of a load's result, once started; a failed load has none. -/
def startLoaded : Except Raised State → Option Session
  | .ok s => some ⟨false, s.setRunState .running⟩
  | .error _ => none

theorem launch_map_session (image : List Byte) :
    (launch image).map (Session.mk false) = startLoaded (loadImage image 0 State.reset) := by
  rw [launch]
  cases loadImage image 0 State.reset <;> rfl

/-- After a failed load the moves have no result: there is a further load or the start among them, and neither is
usable. -/
theorem foldlM_loadThenStart_failed (image : List Byte) (a : Nat) (s : State) :
    (loadThenStart image a).foldlM (fun x m => hostMove m x) ⟨true, s⟩ = none := by
  have hnot : ¬ (Session.mk true s).loadable := nofun
  cases image with
  | nil => rw [loadThenStart_nil, List.foldlM_cons, hostMove, if_neg hnot]; rfl
  | cons b image => rw [loadThenStart_cons, List.foldlM_cons, hostMove, if_neg hnot]; rfl

/-- From an engine not started the moves do what `loadImage` does, then start. -/
theorem foldlM_loadThenStart (image : List Byte) (a : Nat) {s : State} (hs : s.runState = .notStarted) :
    (loadThenStart image a).foldlM (fun x m => hostMove m x) ⟨false, s⟩ = startLoaded (loadImage image a s) := by
  induction image generalizing a s with
  | nil =>
    have hloadable : (Session.mk false s).loadable := ⟨hs, rfl⟩
    rw [loadThenStart_nil, List.foldlM_cons, hostMove, if_pos hloadable]; rfl
  | cons b image ih =>
    have hloadable : (Session.mk false s).loadable := ⟨hs, rfl⟩
    rw [loadThenStart_cons, List.foldlM_cons, hostMove, if_pos hloadable, loadImage, memWrite_byte]
    by_cases ha : a < 256
    · rw [if_pos ha]
      exact ih (a + 1) hs
    · rw [if_neg ha]
      exact foldlM_loadThenStart_failed image (a + 1) s

/-- Settles O44: the moves from the reset session do what loading and starting its state does
(`foldlM_loadThenStart`). -/
theorem loadPortThenStartIsLaunch : Obligations.LoadPortThenStartIsLaunch :=
  fun image => (foldlM_loadThenStart image 0 rfl).trans (launch_map_session image).symm

/-! ### The end status -/

/-- Settles O49: the status shows the code of the record's cause, and 0 without a record. -/
theorem faultCauseCodes : Obligations.FaultCauseCodes := by
  intro s
  have hcode (f : FaultRecord) (h : s.fault = some f) : s.causeCode = f.cause.code := by rw [State.causeCode, h]
  exact ⟨fun h => by rw [State.causeCode, h], fun p n => ⟨hcode _, hcode _, hcode _, hcode _⟩⟩

/-- The exit code of a Faulted engine is not 0: 1 or the host's parameter, which is a successor. -/
theorem exitCode_faulted {s : State} (h : s.runState = .faulted) : ∃ n, exitCode s = some (n + 1) := by
  cases hf : s.fault with
  | none => exact ⟨Config.exitCodeOtherFaultPred, by rw [exitCode, h, hf]; rfl⟩
  | some f =>
    obtain ⟨cause, p, n⟩ := f
    cases cause with
    | invalidOpcode => exact ⟨0, by rw [exitCode, h, hf]⟩
    | outOfBounds | invalidRegister | unsupportedALUOperation =>
      exact ⟨Config.exitCodeOtherFaultPred, by rw [exitCode, h, hf]; rfl⟩

theorem exitCode_notStarted {s : State} (h : s.runState = .notStarted) : exitCode s = none := by
  rw [exitCode, h]

theorem exitCode_running {s : State} (h : s.runState = .running) : exitCode s = none := by
  rw [exitCode, h]

/-- Settles O46: the first two clauses go through the four run states. -/
theorem exitCodeOfEndStatus : Obligations.ExitCodeOfEndStatus := by
  intro s
  have hinvalid (p : PcWord) (n : Option Int) (hrun : s.runState = .faulted)
      (hfault : s.fault = some ⟨.invalidOpcode, p, n⟩) : exitCode s = some 1 := by rw [exitCode, hrun, hfault]
  suffices h : (exitCode s = some 0 ↔ s.runState = .halted) ∧ (exitCode s = none ↔ ¬ s.ended) from
    ⟨h.1, h.2, hinvalid, rfl, Nat.succ_ne_zero _⟩
  cases hrun : s.runState with
  | notStarted => simp [exitCode_notStarted hrun, State.ended, hrun]
  | running => simp [exitCode_running hrun, State.ended, hrun]
  | halted => simp [exitCode_halted hrun, State.ended, hrun]
  | faulted =>
    obtain ⟨n, hn⟩ := exitCode_faulted hrun
    simp [hn, State.ended, hrun]

end Sys2Proof.Machine
end

section
/-! PROOFS. What one line of a program text yields (spec/30_encoding.md rule R61). -/

namespace Sys2Proof.Machine

/-! ### The content of a line and its literal -/

/-- The content of a line: what stands before its comment. -/
def lineContent (line : List Char) : List Char := line.takeWhile (· ≠ '#')

theorem lineContent_append {before : List Char} (h : '#' ∉ before) (rest : List Char) :
    lineContent (before ++ rest) = before ++ lineContent rest :=
  List.takeWhile_append_of_pos fun c hc => by simpa using fun heq : c = '#' => h (heq ▸ hc)

theorem lineContent_of_not_mem {line : List Char} (h : '#' ∉ line) : lineContent line = line := by
  have happend := lineContent_append h []
  rwa [List.append_nil, show lineContent [] = [] from rfl, List.append_nil] at happend

/-- The content before a comment. -/
theorem lineContent_comment {before : List Char} (h : '#' ∉ before) (comment : List Char) :
    lineContent (before ++ '#' :: comment) = before := by
  rw [lineContent_append h, show lineContent ('#' :: comment) = [] from rfl, List.append_nil]

/-- Spaces behind a text without spaces are dropped, and only these. -/
theorem dropTrailingSpaces_append_spaces {cs : List Char} (h : ' ' ∉ cs) (k : Nat) :
    dropTrailingSpaces (cs ++ List.replicate k ' ') = cs := by
  have hkeep : cs.reverse.dropWhile (· = ' ') = cs.reverse := by
    cases hr : cs.reverse with
    | nil => rfl
    | cons c rest =>
      have hc : c ∈ cs := by rw [← List.mem_reverse, hr]; exact List.mem_cons_self
      exact List.dropWhile_cons_of_neg (by simpa using fun heq : c = ' ' => h (heq ▸ hc))
  rw [dropTrailingSpaces, List.reverse_append, List.reverse_replicate,
    List.dropWhile_append_of_pos (by simp +contextual), hkeep, List.reverse_reverse]

theorem dropTrailingSpaces_ne_nil {cs : List Char} {c : Char} (hc : c ∈ cs) (hspace : c ≠ ' ') :
    dropTrailingSpaces cs ≠ [] := by
  intro hnil
  rw [dropTrailingSpaces, List.reverse_eq_nil_iff, List.dropWhile_eq_nil_iff] at hnil
  exact hspace (by simpa using hnil c (List.mem_reverse.mpr hc))

/-! ### The three results of a line -/

/-- A line of spaces, with or without a comment, yields no byte. -/
theorem readLine_spaces {line : List Char} {k : Nat} (h : lineContent line = List.replicate k ' ') :
    readLine line = .skip := by
  have hliteral : dropTrailingSpaces (List.replicate k ' ') = [] :=
    dropTrailingSpaces_append_spaces (cs := []) (by simp) k
  unfold lineContent at h
  simp only [readLine, h, hliteral, if_true]

/-- A line with a character other than the two digits and the space before its comment is malformed. -/
theorem readLine_malformed {line : List Char} {c : Char} (h : c ∈ lineContent line) (h0 : c ≠ '0') (h1 : c ≠ '1')
    (hspace : c ≠ ' ') : readLine line = .malformed := by
  have hany : (lineContent line).any (fun c => c ≠ '0' && c ≠ '1' && c ≠ ' ') = true :=
    List.any_eq_true.mpr ⟨c, h, by simp [h0, h1, hspace]⟩
  have hne := dropTrailingSpaces_ne_nil h hspace
  unfold lineContent at hany hne
  simp only [readLine, if_neg hne, if_pos hany]

/-- A text of binary digits. -/
def IsBinary (ds : List Char) : Prop := ∀ d ∈ ds, d = '0' ∨ d = '1'

theorem IsBinary.not_mem {ds : List Char} (h : IsBinary ds) {c : Char} (h0 : c ≠ '0') (h1 : c ≠ '1') : c ∉ ds :=
  fun hc => (h c hc).elim h0 h1

/-- A line of up to 8 binary digits, with spaces behind them only before a comment, yields their value. -/
theorem readLine_literal {line ds : List Char} {k : Nat} (h : lineContent line = ds ++ List.replicate k ' ')
    (hbin : IsBinary ds) (hne : ds ≠ []) (hlen : ds.length ≤ 8) (hcomment : k = 0 ∨ '#' ∈ line) :
    readLine line = .byte (BitVec.ofNat 8 (binaryValue ds)) := by
  have hnospace : ' ' ∉ ds := hbin.not_mem (by decide) (by decide)
  have hliteral := dropTrailingSpaces_append_spaces hnospace k
  have hall : (ds ++ List.replicate k ' ').any (fun c => c ≠ '0' && c ≠ '1' && c ≠ ' ') = false := by
    rw [List.any_eq_false]
    intro c hc
    obtain hc | hc := List.mem_append.mp hc
    · obtain rfl | rfl := hbin c hc <;> simp
    · simp [List.eq_of_mem_replicate hc]
  have hshort : (ds.any (· = ' ') || ds.length > 8) = false := by
    simpa [hlen] using fun c hc (heq : c = ' ') => hnospace (heq ▸ hc)
  have hstated : (ds ++ List.replicate k ' ' ≠ ds && !line.contains '#') = false := by
    obtain rfl | hmem := hcomment
    · simp
    · simp [hmem]
  unfold lineContent at h
  simp only [readLine, h, hliteral, if_neg hne, hall, hshort, hstated]
  simp

/-- A line of up to 8 binary digits alone. -/
theorem readLine_binary {ds : List Char} (hbin : IsBinary ds) (hne : ds ≠ []) (hlen : ds.length ≤ 8) :
    readLine ds = .byte (BitVec.ofNat 8 (binaryValue ds)) := by
  have hcontent := lineContent_of_not_mem (hbin.not_mem (c := '#') (by decide) (by decide))
  exact readLine_literal (k := 0) (hcontent.trans (List.append_nil ds).symm) hbin hne hlen (.inl rfl)

/-! ### Zeros on the left -/

theorem IsBinary.zeros_append {ds : List Char} (h : IsBinary ds) (n : Nat) : IsBinary (List.replicate n '0' ++ ds) :=
  fun d hd => (List.mem_append.mp hd).elim (fun hzero => .inl (List.eq_of_mem_replicate hzero)) (h d)

/-- Zeros on the left do not change the value of a numeral. -/
theorem binaryValue_zeros_append (n : Nat) (ds : List Char) :
    binaryValue (List.replicate n '0' ++ ds) = binaryValue ds := by
  induction n with
  | zero => rfl
  | succ n ih => exact ih

/-- Settles O48: the content of each line is known (`lineContent_append`), and decides what it yields
(`readLine_literal`, `readLine_spaces`, `readLine_malformed`). -/
theorem programTextLineYieldsByte : Obligations.ProgramTextLineYieldsByte := by
  intro comment
  refine ⟨?literal, ?blank, ?malformed⟩
  case literal =>
    intro ds k hds hne hlen
    have hbin : IsBinary ds := hds
    have hnohash : '#' ∉ ds ++ List.replicate k ' ' := by
      simp [hbin.not_mem (c := '#') (by decide) (by decide)]
    have hpadded := readLine_binary (hbin.zeros_append (8 - ds.length)) (by simp [hne]) (by simp; omega)
    rw [readLine_binary hbin hne hlen]
    refine ⟨rfl, ?commented, binaryValue_zeros_append (8 - ds.length) ds ▸ hpadded⟩
    case commented =>
      exact readLine_literal (lineContent_comment hnohash comment) hbin hne hlen
        (.inr (List.mem_append_right _ List.mem_cons_self))
  case blank =>
    intro k
    have hnohash : '#' ∉ List.replicate k ' ' := by simp
    exact ⟨readLine_spaces (lineContent_of_not_mem hnohash), readLine_spaces (lineContent_comment hnohash comment)⟩
  case malformed =>
    intro before c hbefore h0 h1 hspace hhash
    have hcontent : lineContent (c :: comment) = c :: lineContent comment :=
      List.takeWhile_cons_of_pos (by simpa using hhash)
    refine readLine_malformed (c := c) ?inContent h0 h1 hspace
    case inContent =>
      rw [lineContent_append hbefore, hcontent]
      exact List.mem_append_right _ List.mem_cons_self

end Sys2Proof.Machine
end
